-- ==== Sys2Proof/Word.lean ====
section
/-! DEFINITION. The word types of the CHIP-8 core (spec 00_scope R6, R8). All values are unsigned. -/

namespace Sys2Proof

/-- A memory byte, a register `V[i]`, a timer, an immediate `kk`: 8 bits (R6). -/
abbrev Byte := BitVec 8

/-- An opcode, `I`, `PC` or a stack cell: 16 bits (R6). -/
abbrev Word := BitVec 16

/-- A 4-bit field: a register index, a key number, the row count `n` (R9, R71). -/
abbrev Nibble := BitVec 4

/-- The address immediate `nnn`: 12 bits (R9, R71). -/
abbrev Addr12 := BitVec 12

end Sys2Proof
end

