-- ==== Sys2Proof/Syntax.lean ====
section
/-! DEFINITION. The 34 instructions of spec 30_encoding R74, one constructor per row, in the table's order.
The constructors' names follow the conventional mnemonics of R74, which are labels only (R81). -/

namespace Sys2Proof

/-- A decoded instruction: "a tagged-variant decode producing an enumerated instruction value" (R92).
`x` and `y` are register indices, not contents (R9). -/
inductive Instr where
  /-- `00E0`, R135 -/
  | cls
  /-- `00EE`, R100 -/
  | ret
  /-- `1nnn`, R101 -/
  | jp (nnn : Addr12)
  /-- `2nnn`, R102 -/
  | call (nnn : Addr12)
  /-- `3xkk`, R103 -/
  | seImm (x : Nibble) (kk : Byte)
  /-- `4xkk`, R104 -/
  | sneImm (x : Nibble) (kk : Byte)
  /-- `5xy0`, R105 -/
  | seReg (x y : Nibble)
  /-- `6xkk`, R110 -/
  | ldImm (x : Nibble) (kk : Byte)
  /-- `7xkk`, R111 -/
  | addImm (x : Nibble) (kk : Byte)
  /-- `8xy0`, R112 -/
  | ldReg (x y : Nibble)
  /-- `8xy1`, R113 -/
  | orReg (x y : Nibble)
  /-- `8xy2`, R114 -/
  | andReg (x y : Nibble)
  /-- `8xy3`, R115 -/
  | xorReg (x y : Nibble)
  /-- `8xy4`, R116 -/
  | addReg (x y : Nibble)
  /-- `8xy5`, R117 -/
  | subReg (x y : Nibble)
  /-- `8xy6`, R118: `y` is encoded and ignored -/
  | shr (x y : Nibble)
  /-- `8xy7`, R119 -/
  | subnReg (x y : Nibble)
  /-- `8xyE`, R120: `y` is encoded and ignored -/
  | shl (x y : Nibble)
  /-- `9xy0`, R106 -/
  | sneReg (x y : Nibble)
  /-- `Annn`, R125 -/
  | ldI (nnn : Addr12)
  /-- `Bnnn`, R107 -/
  | jpV0 (nnn : Addr12)
  /-- `Cxkk`, R124 -/
  | rnd (x : Nibble) (kk : Byte)
  /-- `Dxyn`, R136 -/
  | drw (x y n : Nibble)
  /-- `Ex9E`, R145 -/
  | skp (x : Nibble)
  /-- `ExA1`, R146 -/
  | sknp (x : Nibble)
  /-- `Fx07`, R148 -/
  | ldVxDt (x : Nibble)
  /-- `Fx0A`, R147 -/
  | ldVxKey (x : Nibble)
  /-- `Fx15`, R149 -/
  | ldDtVx (x : Nibble)
  /-- `Fx18`, R150 -/
  | ldStVx (x : Nibble)
  /-- `Fx1E`, R126 -/
  | addI (x : Nibble)
  /-- `Fx29`, R127 -/
  | ldF (x : Nibble)
  /-- `Fx33`, R128 -/
  | ldB (x : Nibble)
  /-- `Fx55`, R130 -/
  | stRegs (x : Nibble)
  /-- `Fx65`, R131 -/
  | ldRegs (x : Nibble)
deriving DecidableEq, Repr

end Sys2Proof
end

