-- ==== Sys2Proof/WellFormed.lean ====
section
/-! DEFINITION. Well-formed instructions (spec 30_encoding R73: "all 16 values are legal in every instruction that has
the field", every `kk` and `nnn` is legal too). The operand types carry exactly these ranges, so the checks refuse no
term of `Instr`: an ill-formed instruction cannot be written. Ill-formed WORDS are refused by `wordLegal` (Decode.lean). -/

namespace Sys2Proof

/-- `x`, `y`, `n`: 0..15 (R71). -/
def nibbleOk (f : Nibble) : Bool := f.toNat < 16

/-- `kk`: 0..255 (R71). -/
def byteOk (kk : Byte) : Bool := kk.toNat < 256

/-- `nnn`: 0..4095 (R71). -/
def addrOk (nnn : Addr12) : Bool := nnn.toNat < 4096

/-- Every operand is in its field's range (R71, R73). -/
def Instr.wellFormed : Instr → Bool
  | .cls | .ret => true
  | .jp nnn | .call nnn | .ldI nnn | .jpV0 nnn => addrOk nnn
  | .seImm x kk | .sneImm x kk | .ldImm x kk | .addImm x kk | .rnd x kk => nibbleOk x && byteOk kk
  | .seReg x y | .sneReg x y | .ldReg x y | .orReg x y | .andReg x y | .xorReg x y | .addReg x y | .subReg x y
  | .shr x y | .subnReg x y | .shl x y => nibbleOk x && nibbleOk y
  | .drw x y n => nibbleOk x && nibbleOk y && nibbleOk n
  | .skp x | .sknp x | .ldVxDt x | .ldVxKey x | .ldDtVx x | .ldStVx x | .addI x | .ldF x | .ldB x | .stRegs x
  | .ldRegs x => nibbleOk x

end Sys2Proof
end

