-- ==== Sys2Proof/Decode.lean ====
section
/-! DEFINITION. The decoder (spec 30_encoding R70, R71, R75-R78; 40_step_cycle R92), then the encoder (R72, R74) and the
opcode map as a table of masks (R74). The decoder follows the dispatch rules R75-R77, the table follows R74; that the two
agree is a statement. -/

namespace Sys2Proof

/-! ### Fields (R71) -/

/-- `op = opc[15:12]`. -/
def fieldOp (opc : Word) : Nibble := opc.extractLsb' 12 4

/-- `x = opc[11:8]`. -/
def fieldX (opc : Word) : Nibble := opc.extractLsb' 8 4

/-- `y = opc[7:4]`. -/
def fieldY (opc : Word) : Nibble := opc.extractLsb' 4 4

/-- `n = opc[3:0]`. -/
def fieldN (opc : Word) : Nibble := opc.extractLsb' 0 4

/-- `kk = opc[7:0]`. -/
def fieldKk (opc : Word) : Byte := opc.extractLsb' 0 8

/-- `nnn = opc[11:0]`. -/
def fieldNnn (opc : Word) : Addr12 := opc.extractLsb' 0 12

/-! ### The decoder -/

/-- Family 0: the whole word is compared (R76). -/
def decode0 (opc : Word) : Option Instr :=
  if opc = 0x00E0#16 then some .cls
  else if opc = 0x00EE#16 then some .ret
  else none

/-- Family 8: dispatch on `opc[3:0]` (R76). -/
def decode8 (opc : Word) : Option Instr :=
  let x := fieldX opc
  let y := fieldY opc
  match fieldN opc with
  | 0x0#4 => some (.ldReg x y)
  | 0x1#4 => some (.orReg x y)
  | 0x2#4 => some (.andReg x y)
  | 0x3#4 => some (.xorReg x y)
  | 0x4#4 => some (.addReg x y)
  | 0x5#4 => some (.subReg x y)
  | 0x6#4 => some (.shr x y)
  | 0x7#4 => some (.subnReg x y)
  | 0xE#4 => some (.shl x y)
  | _ => none

/-- Family E: dispatch on the low byte (R77). -/
def decodeE (opc : Word) : Option Instr :=
  match fieldKk opc with
  | 0x9E#8 => some (.skp (fieldX opc))
  | 0xA1#8 => some (.sknp (fieldX opc))
  | _ => none

/-- Family F: dispatch on the low byte (R77). -/
def decodeF (opc : Word) : Option Instr :=
  let x := fieldX opc
  match fieldKk opc with
  | 0x07#8 => some (.ldVxDt x)
  | 0x0A#8 => some (.ldVxKey x)
  | 0x15#8 => some (.ldDtVx x)
  | 0x18#8 => some (.ldStVx x)
  | 0x1E#8 => some (.addI x)
  | 0x29#8 => some (.ldF x)
  | 0x33#8 => some (.ldB x)
  | 0x55#8 => some (.stRegs x)
  | 0x65#8 => some (.ldRegs x)
  | _ => none

/-- Phase 2 of a step (R92): total on all 65536 words; `none` is an illegal word (R78). Primary dispatch on the top
nibble (R75); families 5 and 9 require `opc[3:0] = 0`. -/
def decode (opc : Word) : Option Instr :=
  let x := fieldX opc
  let y := fieldY opc
  let kk := fieldKk opc
  let nnn := fieldNnn opc
  match fieldOp opc with
  | 0x0#4 => decode0 opc
  | 0x1#4 => some (.jp nnn)
  | 0x2#4 => some (.call nnn)
  | 0x3#4 => some (.seImm x kk)
  | 0x4#4 => some (.sneImm x kk)
  | 0x5#4 => if fieldN opc = 0#4 then some (.seReg x y) else none
  | 0x6#4 => some (.ldImm x kk)
  | 0x7#4 => some (.addImm x kk)
  | 0x8#4 => decode8 opc
  | 0x9#4 => if fieldN opc = 0#4 then some (.sneReg x y) else none
  | 0xA#4 => some (.ldI nnn)
  | 0xB#4 => some (.jpV0 nnn)
  | 0xC#4 => some (.rnd x kk)
  | 0xD#4 => some (.drw x y (fieldN opc))
  | 0xE#4 => decodeE opc
  | 0xF#4 => decodeF opc
  -- the sixteen nibbles are all named above
  | _ => none

/-- Why a byte string is not an instruction. -/
inductive Reject where
  /-- the first two bytes form a word that matches no row (R78) -/
  | illegalWord (opc : Word)
  /-- fewer than two bytes: every instruction is exactly two (R70) -/
  | tooShort
deriving DecidableEq, Repr

/-- The opcode of two bytes in memory order: the byte at the lower address is the high byte (R53, R70). -/
def opcodeOf (hi lo : Byte) : Word := hi ++ lo

/-- The decoder on bytes in memory order, with the bytes after the instruction; rejects by name. -/
def decodeBytes : List Byte → Except Reject (Instr × List Byte)
  | hi :: lo :: rest =>
    match decode (opcodeOf hi lo) with
    | some i => .ok (i, rest)
    | none => .error (.illegalWord (opcodeOf hi lo))
  | _ => .error .tooShort

/-! ### The encoder (R72, R74) -/

/-- Format NNN (R72): `op` in bits 15..12, `nnn` below. -/
def wordNnn (op : Nibble) (nnn : Addr12) : Word := op ++ nnn

/-- Formats XKK and X (R72): `op`, `x`, and the low byte `kk`. -/
def wordXkk (op x : Nibble) (kk : Byte) : Word := op ++ x ++ kk

/-- Formats FIX, XY and XYN (R72): four nibbles from bit 15 down. -/
def wordXyn (op x y n : Nibble) : Word := op ++ x ++ y ++ n

/-- The word of an instruction, its nibbles from bit 15 down as R74's bit patterns print them. The field `y` of
the shifts is kept: all its values are legal (R79). -/
def encode : Instr → Word
  | .cls => wordXyn 0x0#4 0x0#4 0xE#4 0x0#4
  | .ret => wordXyn 0x0#4 0x0#4 0xE#4 0xE#4
  | .jp nnn => wordNnn 0x1#4 nnn
  | .call nnn => wordNnn 0x2#4 nnn
  | .seImm x kk => wordXkk 0x3#4 x kk
  | .sneImm x kk => wordXkk 0x4#4 x kk
  | .seReg x y => wordXyn 0x5#4 x y 0x0#4
  | .ldImm x kk => wordXkk 0x6#4 x kk
  | .addImm x kk => wordXkk 0x7#4 x kk
  | .ldReg x y => wordXyn 0x8#4 x y 0x0#4
  | .orReg x y => wordXyn 0x8#4 x y 0x1#4
  | .andReg x y => wordXyn 0x8#4 x y 0x2#4
  | .xorReg x y => wordXyn 0x8#4 x y 0x3#4
  | .addReg x y => wordXyn 0x8#4 x y 0x4#4
  | .subReg x y => wordXyn 0x8#4 x y 0x5#4
  | .shr x y => wordXyn 0x8#4 x y 0x6#4
  | .subnReg x y => wordXyn 0x8#4 x y 0x7#4
  | .shl x y => wordXyn 0x8#4 x y 0xE#4
  | .sneReg x y => wordXyn 0x9#4 x y 0x0#4
  | .ldI nnn => wordNnn 0xA#4 nnn
  | .jpV0 nnn => wordNnn 0xB#4 nnn
  | .rnd x kk => wordXkk 0xC#4 x kk
  | .drw x y n => wordXyn 0xD#4 x y n
  | .skp x => wordXkk 0xE#4 x 0x9E#8
  | .sknp x => wordXkk 0xE#4 x 0xA1#8
  | .ldVxDt x => wordXkk 0xF#4 x 0x07#8
  | .ldVxKey x => wordXkk 0xF#4 x 0x0A#8
  | .ldDtVx x => wordXkk 0xF#4 x 0x15#8
  | .ldStVx x => wordXkk 0xF#4 x 0x18#8
  | .addI x => wordXkk 0xF#4 x 0x1E#8
  | .ldF x => wordXkk 0xF#4 x 0x29#8
  | .ldB x => wordXkk 0xF#4 x 0x33#8
  | .stRegs x => wordXkk 0xF#4 x 0x55#8
  | .ldRegs x => wordXkk 0xF#4 x 0x65#8

/-- The two bytes of an instruction in memory order (R70). -/
def encodeBytes (i : Instr) : List Byte := [(encode i).extractLsb' 8 8, (encode i).extractLsb' 0 8]

/-! ### The opcode map as masks (R72, R74) -/

/-- The six formats of R72. -/
inductive Format where
  | fix | nnn | xkk | xy | xyn | x
deriving DecidableEq, Repr

/-- The set of bits a decoder must compare (R72). -/
def Format.mask : Format → Word
  | .fix => 0xFFFF#16
  | .nnn | .xkk | .xyn => 0xF000#16
  | .xy => 0xF00F#16
  | .x => 0xF0FF#16

/-- One row of the opcode map: its format (hence its mask) and its `match` value (R74). -/
structure Row where
  format : Format
  pattern : Word
deriving DecidableEq, Repr

/-- A word selects a row iff `(w and mask) = match` (R72). -/
def Row.selects (r : Row) (w : Word) : Bool := w &&& r.format.mask == r.pattern

/-- The row of R74 that an instruction belongs to. -/
def Instr.row : Instr → Row
  | .cls => ⟨.fix, 0x00E0#16⟩
  | .ret => ⟨.fix, 0x00EE#16⟩
  | .jp _ => ⟨.nnn, 0x1000#16⟩
  | .call _ => ⟨.nnn, 0x2000#16⟩
  | .seImm _ _ => ⟨.xkk, 0x3000#16⟩
  | .sneImm _ _ => ⟨.xkk, 0x4000#16⟩
  | .seReg _ _ => ⟨.xy, 0x5000#16⟩
  | .ldImm _ _ => ⟨.xkk, 0x6000#16⟩
  | .addImm _ _ => ⟨.xkk, 0x7000#16⟩
  | .ldReg _ _ => ⟨.xy, 0x8000#16⟩
  | .orReg _ _ => ⟨.xy, 0x8001#16⟩
  | .andReg _ _ => ⟨.xy, 0x8002#16⟩
  | .xorReg _ _ => ⟨.xy, 0x8003#16⟩
  | .addReg _ _ => ⟨.xy, 0x8004#16⟩
  | .subReg _ _ => ⟨.xy, 0x8005#16⟩
  | .shr _ _ => ⟨.xy, 0x8006#16⟩
  | .subnReg _ _ => ⟨.xy, 0x8007#16⟩
  | .shl _ _ => ⟨.xy, 0x800E#16⟩
  | .sneReg _ _ => ⟨.xy, 0x9000#16⟩
  | .ldI _ => ⟨.nnn, 0xA000#16⟩
  | .jpV0 _ => ⟨.nnn, 0xB000#16⟩
  | .rnd _ _ => ⟨.xkk, 0xC000#16⟩
  | .drw _ _ _ => ⟨.xyn, 0xD000#16⟩
  | .skp _ => ⟨.x, 0xE09E#16⟩
  | .sknp _ => ⟨.x, 0xE0A1#16⟩
  | .ldVxDt _ => ⟨.x, 0xF007#16⟩
  | .ldVxKey _ => ⟨.x, 0xF00A#16⟩
  | .ldDtVx _ => ⟨.x, 0xF015#16⟩
  | .ldStVx _ => ⟨.x, 0xF018#16⟩
  | .addI _ => ⟨.x, 0xF01E#16⟩
  | .ldF _ => ⟨.x, 0xF029#16⟩
  | .ldB _ => ⟨.x, 0xF033#16⟩
  | .stRegs _ => ⟨.x, 0xF055#16⟩
  | .ldRegs _ => ⟨.x, 0xF065#16⟩

/-- R74's table, rows `00E0` to `7xkk`. -/
def opcodeTableLow : List Row :=
  [⟨.fix, 0x00E0#16⟩, ⟨.fix, 0x00EE#16⟩, ⟨.nnn, 0x1000#16⟩, ⟨.nnn, 0x2000#16⟩, ⟨.xkk, 0x3000#16⟩, ⟨.xkk, 0x4000#16⟩, ⟨.xy, 0x5000#16⟩,
   ⟨.xkk, 0x6000#16⟩, ⟨.xkk, 0x7000#16⟩]

/-- R74's table, rows `8xy0` to `9xy0`. -/
def opcodeTableAlu : List Row :=
  [⟨.xy, 0x8000#16⟩, ⟨.xy, 0x8001#16⟩, ⟨.xy, 0x8002#16⟩, ⟨.xy, 0x8003#16⟩, ⟨.xy, 0x8004#16⟩, ⟨.xy, 0x8005#16⟩, ⟨.xy, 0x8006#16⟩,
   ⟨.xy, 0x8007#16⟩, ⟨.xy, 0x800E#16⟩, ⟨.xy, 0x9000#16⟩]

/-- R74's table, rows `Annn` to `Fx65`. -/
def opcodeTableHigh : List Row :=
  [⟨.nnn, 0xA000#16⟩, ⟨.nnn, 0xB000#16⟩, ⟨.xkk, 0xC000#16⟩, ⟨.xyn, 0xD000#16⟩, ⟨.x, 0xE09E#16⟩, ⟨.x, 0xE0A1#16⟩, ⟨.x, 0xF007#16⟩,
   ⟨.x, 0xF00A#16⟩, ⟨.x, 0xF015#16⟩, ⟨.x, 0xF018#16⟩, ⟨.x, 0xF01E#16⟩, ⟨.x, 0xF029#16⟩, ⟨.x, 0xF033#16⟩, ⟨.x, 0xF055#16⟩, ⟨.x, 0xF065#16⟩]

/-- The complete opcode map (R74): 34 rows. -/
def opcodeTable : List Row := opcodeTableLow ++ opcodeTableAlu ++ opcodeTableHigh

/-- A word is legal iff some row selects it (R74, R78). -/
def wordLegal (w : Word) : Bool := opcodeTable.any (·.selects w)

/-! ### The host's entry: an instruction by the opcode table's bit numbers -/

/-- The two bytes, in memory order, of the instruction whose bits are `w` (bit 0 the least significant bit of the one
16-bit word; every bit above `nbits` is 0). -/
def tableBytes (nbits w : Nat) : List Byte :=
  [BitVec.ofNat 8 (w % 2 ^ nbits / 256), BitVec.ofNat 8 (w % 2 ^ nbits)]

/-- What the decoder reads from an instruction whose bits are `w`, laid out as the hardware stores it. -/
def decodeTableWord (nbits w : Nat) : Option Instr :=
  match decodeBytes (tableBytes nbits w) with
  | .ok (i, _) => some i
  | .error _ => none

end Sys2Proof
end

