-- ==== Sys2Proof/Config.lean ====
section
/-! DEFINITION. What is fixed for the machine (spec 00_scope R6) and the one free value (R7).
The other parameter of R7, the default `FONT`, is `Sys2Proof.Machine.fontBytes` in Machine/Font.lean. -/

namespace Sys2Proof

/-- Bytes of memory (R6, R50). -/
abbrev Config.memSize : Nat := 4096

/-- Font base address (R6). -/
abbrev Config.fontBase : Nat := 0x050

/-- Bytes of the font: 16 glyphs of 5 bytes (R6). -/
abbrev Config.fontSize : Nat := 80

/-- Program base address and entry point (R6, R57). -/
abbrev Config.romBase : Nat := 0x200

/-- Largest program in bytes, 4096 - 512 (R6, R177). -/
abbrev Config.romMax : Nat := 3584

/-- Framebuffer columns (R6). -/
abbrev Config.columns : Nat := 64

/-- Framebuffer rows (R6). -/
abbrev Config.rows : Nat := 32

/-- FREE VALUE (log entry 1). The byte the random source delivers to the `k`-th executed `Cxkk`
(42_load_alu R124: any of 0..255, under no law). It has no body, so nothing can prove a value of it. -/
opaque Config.rnd : Nat → Byte

end Sys2Proof
end

