-- ==== Sys2Proof/Machine/Font.lean ====
section
/-! DEFINITION. `FONT`, the configuration constant of spec 10_state R31, at the spec's default (log entry 3, PRESUMED:
the default is general knowledge, not in the source). Another `FONT` is an argument of `State.construct`
(Machine/HostOps.lean). -/

namespace Sys2Proof.Machine

/-- Glyphs 0 to 7 (R31). -/
def fontLow : List Byte :=
  [0xF0, 0x90, 0x90, 0x90, 0xF0] ++ [0x20, 0x60, 0x20, 0x20, 0x70] ++ [0xF0, 0x10, 0xF0, 0x80, 0xF0] ++
  [0xF0, 0x10, 0xF0, 0x10, 0xF0] ++ [0x90, 0x90, 0xF0, 0x10, 0x10] ++ [0xF0, 0x80, 0xF0, 0x10, 0xF0] ++
  [0xF0, 0x80, 0xF0, 0x90, 0xF0] ++ [0xF0, 0x10, 0x20, 0x40, 0x40]

/-- Glyphs 8 to F (R31). -/
def fontHigh : List Byte :=
  [0xF0, 0x90, 0xF0, 0x90, 0xF0] ++ [0xF0, 0x90, 0xF0, 0x10, 0xF0] ++ [0xF0, 0x90, 0xF0, 0x90, 0x90] ++
  [0xE0, 0x90, 0xE0, 0x90, 0xE0] ++ [0xF0, 0x80, 0x80, 0x80, 0xF0] ++ [0xE0, 0x90, 0x90, 0x90, 0xE0] ++
  [0xF0, 0x80, 0xF0, 0x80, 0xF0] ++ [0xF0, 0x80, 0xF0, 0x80, 0x80]

/-- `FONT[0..79]`: 16 glyphs of 5 bytes, top row first (R31). -/
def fontBytes : List Byte := fontLow ++ fontHigh

end Sys2Proof.Machine
end

