-- ==== Sys2Proof/Machine/State.lean ====
section
/-! DEFINITION. The state of the core (spec 10_state R20), its value at construction (R35), the fatal conditions of a step
(60_exceptions R155) and the refusals. Plain data only. -/

namespace Sys2Proof.Machine

/-- `MEM` (R32): (address, byte) pairs with rising addresses. An unlisted address reads as `Memory.initial`
(Machine/Memory.lean), the byte it holds at construction; no pair lists that value. -/
abbrev Memory : Type := List Host.Cell

/-- The ten items of R20, and `draws`, which is the model's own. -/
structure State where
  /-- `V[0..15]`, with `VF = V[15]` (R21, R22) -/
  v : Vector Byte 16
  /-- the index register `I`, all 16 bits (R23) -/
  i : Word
  /-- the program counter `PC`, all 16 bits: the address of the executing instruction (R24) -/
  pc : Word
  /-- `STACK[0..15]` (R25) -/
  stack : Vector Word 16
  /-- `SP`, 0..16: how many return addresses are held (R25, R38) -/
  sp : Fin 17
  /-- the delay timer `DT` (R26) -/
  dt : Byte
  /-- the sound timer `ST` (R27) -/
  st : Byte
  /-- `KEY[0..15]`, true = pressed (R28) -/
  keys : Vector Bool 16
  /-- `FB[0..2047]` (R29): bit `k` is the cell `FB[k]`, 1 = on; `Dxyn` works on it by exclusive or (R140) -/
  fb : BitVec 2048
  /-- `REDRAW` (R30) -/
  redraw : Bool
  /-- `MEM[0..4095]` (R32) -/
  mem : Memory
  /-- THE MODEL'S OWN FIELD (log entries 1 and 2): how many random bytes `Cxkk` has taken. -/
  draws : Nat
deriving DecidableEq, Repr

/-- The fatal results of a step (R155; a closed taxonomy). Each is safe: the spec ends the step with the same named
result and no state changed (R160). -/
inductive Fault where
  /-- The fetched word matches no row of the opcode map (R156). Raised by phase 2 of `step`. Safe. -/
  | decodeError (opc : Word)
  /-- `2nnn` executed with `SP = 16` (R157). Raised by `execCall` only. Safe. -/
  | stackOverflow
  /-- `00EE` executed with `SP = 0` (R158). Raised by `execRet` only. Safe. -/
  | stackUnderflow
deriving DecidableEq, Repr

/-- Refusals. -/
inductive Refusal where
  /-- An instruction of the opcode table with no meaning in this model, by its mnemonic. Raised by an arm of `exec`
  only; no arm does so now. Safe. -/
  | notModelled (mnemonic : String)
deriving DecidableEq, Repr

/-- What an instruction or a step answers. -/
abbrev Result : Type := Host.Outcome State Fault Refusal

/-- The machine at power-on (R35): `PC` = 0x0200, the font in memory (an unlisted font address reads as the font), every
other byte, register, cell and flag 0. The host operation `reset` (R36) is `State.hostReset` (Machine/HostOps.lean).
`draws` = 0 is a DESIGN CHOICE (log entry 2). -/
def State.reset : State where
  v := Vector.replicate 16 0
  i := 0
  pc := 0x0200
  stack := Vector.replicate 16 0
  sp := 0
  dt := 0
  st := 0
  keys := Vector.replicate 16 false
  fb := 0
  redraw := false
  mem := []
  draws := 0

end Sys2Proof.Machine
end

