-- ==== Sys2Proof/Machine/Memory.lean ====
section
/-! DEFINITION. `MEM` (spec 10_state R32, 20_memory R50-R57) as a canonical list of cells: what an unlisted address reads
as, reading and writing one byte, and the canonical form. Addresses here are already reduced mod 4096; the reduction is
`State.memRead` and `State.memWrite` (Machine/Ops.lean). -/

namespace Sys2Proof.Machine

/-- What an unlisted address reads as: its byte at construction, `FONT` at 0x050..0x09F and 0 elsewhere
(R35, R57; log entries 3 and 4). -/
def Memory.initial (a : Nat) : Byte :=
  if Config.fontBase ≤ a ∧ a < Config.fontBase + Config.fontSize then fontBytes.getD (a - Config.fontBase) 0 else 0

/-- The byte at an address. -/
def Memory.read : Memory → Nat → Byte
  | [], a => Memory.initial a
  | (b, w) :: rest, a => if b = a then w else Memory.read rest a

/-- List a byte at an address, in its place in the rising order. -/
def Memory.put : Memory → Nat → Byte → Memory
  | [], a, v => [(a, v)]
  | (b, w) :: rest, a, v =>
    if a < b then (a, v) :: (b, w) :: rest
    else if a = b then (a, v) :: rest
    else (b, w) :: Memory.put rest a v

/-- Unlist an address. -/
def Memory.drop (m : Memory) (a : Nat) : Memory := m.filter (fun c => c.1 != a)

/-- Write a byte; writing what an unlisted address reads as unlists it, so equal memories are equal lists. -/
def Memory.write (m : Memory) (a : Nat) (v : Byte) : Memory :=
  if v = Memory.initial a then m.drop a else m.put a v

/-- The canonical form: addresses strictly rising and below 4096, no cell equal to what its address reads as unlisted. -/
abbrev Memory.wf (m : Memory) : Prop :=
  m.Pairwise (fun c d => c.1 < d.1) ∧ ∀ c ∈ m, c.1 < Config.memSize ∧ c.2 ≠ Memory.initial c.1

end Sys2Proof.Machine
end

