-- ==== Sys2Proof/Machine/Ops.lean ====
section
/-! DEFINITION. The named operations over the state: registers, memory, the program counter, the call stack, ending a step
with a fatal result, the fetch and the timer tick. -/

namespace Sys2Proof.Machine

/-! ### Registers (spec 10_state R21) -/

/-- `V[x]`. -/
def State.getV (s : State) (x : Nibble) : Byte := s.v[x.toNat]'x.isLt

/-- `V[x] <- b`. -/
def State.setV (s : State) (x : Nibble) (b : Byte) : State := { s with v := s.v.set x.toNat b x.isLt }

/-- `I <- w`, all 16 bits (R23). -/
def State.setI (s : State) (w : Word) : State := { s with i := w }

/-! ### Memory (20_memory R50-R52) -/

/-- `MemRead(a, 1)`: the byte `MEM[a mod 4096]` (R51). -/
def State.memRead (s : State) (a : Nat) : Byte := Memory.read s.mem (a % Config.memSize)

/-- `MemWrite(a, 1, b)` (R52): never refused. -/
def State.memWrite (s : State) (a : Nat) (b : Byte) : State :=
  { s with mem := Memory.write s.mem (a % Config.memSize) b }

/-- `MemWrite(a + k, 1, bytes[k])` for each `k` in ascending order, each address reduced on its own (R50, R58). -/
def State.storeBytes (s : State) (a : Nat) : List Byte → State
  | [] => s
  | b :: rest => (s.memWrite a b).storeBytes (a + 1) rest

/-- `V[k] <- MemRead(a + k, 1)` for `k` in 0 .. x, ascending (43_index_memory R131). -/
def State.loadBlock (s : State) (a : Nat) (x : Nibble) : State :=
  (List.range (x.toNat + 1)).foldl (fun t k => t.setV (BitVec.ofNat 4 k) (s.memRead (a + k))) s

/-! ### The program counter (40_step_cycle R95; arithmetic mod 65536, 10_state R24) -/

/-- `pc <- PC + 2`. -/
def State.advance (s : State) : State := { s with pc := s.pc + 2 }

/-- `pc <- target`. -/
def State.jump (s : State) (target : Word) : State := { s with pc := target }

/-- The skip instructions: `PC + 4` if the condition holds, else `PC + 2`. The skipped word is not looked at. -/
def State.skipIf (s : State) (c : Bool) : State := { s with pc := s.pc + (if c then 4 else 2) }

/-! ### Fatal conditions (60_exceptions R160, R161)

This machine's exceptions have no entry: "There is no trap entry in the architectural sense: no handler address, no vector
table, no saved-state registers". Raising ends the step with the named result and keeps nothing of it. There is no return
from an exception (R166). What the host sees, the unchanged state, is `State.hostStep` (Machine/HostOps.lean). -/

/-- `raise <Fault>(info)` (00_scope R10). -/
def raise (f : Fault) : Result := .fault f

/-! ### The call stack (10_state R25) -/

/-- `STACK[SP] <- w; SP <- SP + 1`; none when `SP = 16`. -/
def State.push (s : State) (w : Word) : Option State :=
  if h : s.sp.val < 16 then
    some { s with stack := s.stack.set s.sp.val w, sp := ⟨s.sp.val + 1, Nat.succ_lt_succ h⟩ }
  else none

/-- `SP <- SP - 1`, and the cell just uncovered, which keeps its value; none when `SP = 0`. -/
def State.pop (s : State) : Option (Word × State) :=
  if h : 0 < s.sp.val then
    have hlt : s.sp.val - 1 < 16 := by have := s.sp.isLt; omega
    some (s.stack[s.sp.val - 1], { s with sp := ⟨s.sp.val - 1, Nat.lt_succ_of_lt hlt⟩ })
  else none

/-! ### Fetch and tick (40_step_cycle R91, R96) -/

/-- Phase 1: `opc <- MemRead(PC, 2)`, big-endian; `PC` is not changed. -/
def State.fetch (s : State) : Word := opcodeOf (s.memRead s.pc.toNat) (s.memRead (s.pc.toNat + 1))

/-- One timer's tick: decrement while above 0, never below. -/
def tickTimer (t : Byte) : Byte := if 0 < t then t - 1 else t

/-- Phase 5: both timers tick, independently. -/
def State.tick (s : State) : State := { s with dt := tickTimer s.dt, st := tickTimer s.st }

/-- The end of a step: the tick runs if nothing was raised (R90, R160). -/
def finishStep : Result → Result
  | .next s => .next s.tick
  | .fault f => .fault f
  | .refused r => .refused r

/-- Store an instruction's bytes where the next fetch reads them. -/
def State.placeAtPc (s : State) (bytes : List Byte) : State := s.storeBytes s.pc.toNat bytes

end Sys2Proof.Machine
end

