-- ==== Sys2Proof/Machine/Operands.lean ====
section
/-! DEFINITION. Operand forms: the immediates (spec 30_encoding R73), the one addressing mode (43_index_memory R129), the key
index and the lowest pressed key (45_keypad_timers R151, R147), the font address (43_index_memory R127), BCD digits (R128)
and sprite coordinates (44_display R136). -/

namespace Sys2Proof.Machine

/-- `nnn` zero-extended to 16 bits (R73). -/
def addrImm (nnn : Addr12) : Word := nnn.setWidth 16

/-- `V[x]` zero-extended to 16 bits (R107, R126). -/
def State.wideV (s : State) (x : Nibble) : Word := (s.getV x).setWidth 16

/-- The address of offset `k` from `I`, before the reduction mod 4096 that each access makes (R129). -/
def State.indexed (s : State) (k : Nat) : Nat := s.i.toNat + k

/-- The contents of `V[0..x]`, in order (R130). -/
def State.block (s : State) (x : Nibble) : List Byte :=
  (List.range (x.toNat + 1)).map (fun k => s.getV (BitVec.ofNat 4 k))

/-- `KEY[k]` (10_state R28). -/
def State.key (s : State) (k : Nibble) : Bool := s.keys[k.toNat]'k.isLt

/-- The key tested by `Ex9E` and `ExA1`: the low four bits of `V[x]` (R151). -/
def State.keyIndex (s : State) (x : Nibble) : Nibble := (s.getV x).extractLsb' 0 4

/-- The 16 key numbers in ascending order. -/
def keyNumbers : List Nibble := (List.range 16).map (BitVec.ofNat 4)

/-- `min { k | KEY[k] = 1 }`, none if no key is pressed (R147). -/
def State.lowestKey (s : State) : Option Nibble := keyNumbers.find? s.key

/-- The address of glyph `g`, with the whole byte used (R127). -/
def glyphAddress (g : Byte) : Word := BitVec.ofNat 16 (Config.fontBase + 5 * g.toNat)

/-- Hundreds, tens and ones of a byte, each a whole byte (R128). -/
def bcdDigits (b : Byte) : List Byte :=
  [BitVec.ofNat 8 (b.toNat / 100), BitVec.ofNat 8 (b.toNat / 10 % 10), BitVec.ofNat 8 (b.toNat % 10)]

/-- The start column of a sprite, `V[x] mod 64` (R136). -/
def State.spriteColumn (s : State) (x : Nibble) : Nat := (s.getV x).toNat % Config.columns

/-- The start row of a sprite, `V[y] mod 32` (R136). -/
def State.spriteRow (s : State) (y : Nibble) : Nat := (s.getV y).toNat % Config.rows

/-- Row `k` of the sprite at `I` (R137). -/
def State.spriteByte (s : State) (k : Nat) : Byte := s.memRead (s.indexed k)

end Sys2Proof.Machine
end

