-- ==== Sys2Proof/Machine/ControlFlow.lean ====
section
/-! DEFINITION. Control transfer (spec 41_control_flow R100-R108). Each meaning is phases 3 and 4 of the step; the tick of
40_step_cycle R96 is `step`'s. -/

namespace Sys2Proof.Machine

/-- `00EE` (R100): the popped value is the new `PC` as it stands; fatal when `SP = 0` (60_exceptions R158). -/
def execRet (s : State) : Result :=
  match s.pop with
  | some (target, t) => .next (t.jump target)
  | none => raise .stackUnderflow

/-- `1nnn` (R101). -/
def execJp (nnn : Addr12) (s : State) : Result := .next (s.jump (addrImm nnn))

/-- `2nnn` (R102): pushes the address of the next instruction; fatal when `SP = 16`, before any write (60_exceptions
R157). -/
def execCall (nnn : Addr12) (s : State) : Result :=
  match s.push (s.pc + 2) with
  | some t => .next (t.jump (addrImm nnn))
  | none => raise .stackOverflow

/-- `3xkk` (R103). -/
def execSeImm (x : Nibble) (kk : Byte) (s : State) : Result := .next (s.skipIf (s.getV x == kk))

/-- `4xkk` (R104). -/
def execSneImm (x : Nibble) (kk : Byte) (s : State) : Result := .next (s.skipIf (s.getV x != kk))

/-- `5xy0` (R105). -/
def execSeReg (x y : Nibble) (s : State) : Result := .next (s.skipIf (s.getV x == s.getV y))

/-- `9xy0` (R106). -/
def execSneReg (x y : Nibble) (s : State) : Result := .next (s.skipIf (s.getV x != s.getV y))

/-- `Bnnn` (R107): `nnn + V[0]`, not reduced to 12 bits. -/
def execJpV0 (nnn : Addr12) (s : State) : Result := .next (s.jump (addrImm nnn + s.wideV 0))

end Sys2Proof.Machine
end

