-- ==== Sys2Proof/Machine/Flags.lean ====
section
/-! DEFINITION. What `VF` becomes (spec 10_state R22, 42_load_alu R116-R123, 44_display R138) and the order of the two writes
of a flag-setter (R122, R123, 40_step_cycle R94). -/

namespace Sys2Proof.Machine

/-- A flag as the byte 0 or 1 written to `VF` (R122). -/
def flagByte (c : Bool) : Byte := if c then 1 else 0

/-- `8xy4`: 1 if the exact sum is above 255 (R116). -/
def carryFlag (a b : Byte) : Byte := flagByte (decide (a.toNat + b.toNat > 255))

/-- `8xy5` and `8xy7`: 1 if the first is strictly greater (R117, R119). -/
def greaterFlag (a b : Byte) : Byte := flagByte (decide (a.toNat > b.toNat))

/-- `8xy6`: the bit shifted out to the right (R118). -/
def lowBitFlag (a : Byte) : Byte := flagByte (a.getLsbD 0)

/-- `8xyE`: the bit shifted out to the left (R120). -/
def highBitFlag (a : Byte) : Byte := flagByte (a.getLsbD 7)

/-- `VF <- flag`. -/
def State.setVF (s : State) (flag : Byte) : State := s.setV 15 flag

/-- The two writes of a flag-setter of file 42, the flag first and the result second, both already computed from the
operands of the start of the step: with `x = 15` the result wins (R123). -/
def State.setFlagThenResult (s : State) (x : Nibble) (flag result : Byte) : State := (s.setVF flag).setV x result

end Sys2Proof.Machine
end

