-- ==== Sys2Proof/Machine/Display.lean ====
section
/-! DEFINITION. Display instructions (spec 44_display R135-R140): the clear and the XOR sprite blitter with its collision
flag. Each meaning is phases 3 and 4 of the step. -/

namespace Sys2Proof.Machine

/-- `FB[k]` (10_state R29). -/
def State.cell (s : State) (k : Nat) : Bool := s.fb.getLsbD k

/-- The flat index of the cell at a row and a column (10_state R29). -/
def cellIndex (row column : Nat) : Nat := row * Config.columns + column

/-- The bit of a sprite row byte at a column: the most significant bit is the leftmost pixel (R137; log entry 11). -/
def spriteBit (b : Byte) (col : Nat) : Bool := b.getLsbD (7 - col)

/-- What the blitter's loops carry: the framebuffer, and whether a toggled cell was on (R138: sticky). -/
structure Blit where
  fb : BitVec 2048
  hit : Bool
deriving DecidableEq, Repr

/-- Toggle one cell; a cell that was on before the toggle is a collision. -/
def Blit.toggle (b : Blit) (k : Nat) : Blit := { fb := b.fb ^^^ (1#2048 <<< k), hit := b.hit || b.fb.getLsbD k }

/-- The inner loop of R136: the 8 columns of one sprite row, columns wrapping mod 64 one by one. -/
def Blit.row (b : Blit) (byte : Byte) (r x0 : Nat) : Blit :=
  (List.range 8).foldl
    (fun b col => if spriteBit byte col then b.toggle (cellIndex r ((x0 + col) % Config.columns)) else b) b

/-- The outer loop of R136: `n` rows, each row's position wrapping mod 32 (none when `n = 0`). -/
def State.blit (s : State) (x0 y0 n : Nat) : Blit :=
  (List.range n).foldl (fun b row => b.row (s.spriteByte row) ((y0 + row) % Config.rows) x0) ⟨s.fb, false⟩

/-- `00E0` (R135): `REDRAW` is set even when every cell was off. -/
def execCls (s : State) : Result := .next { s with fb := 0, redraw := true }.advance

/-- `Dxyn` (R136): the coordinates and `I` are read before `VF` is written; `REDRAW` is always set (R139). -/
def execDrw (x y n : Nibble) (s : State) : Result :=
  let b := s.blit (s.spriteColumn x) (s.spriteRow y) n.toNat
  .next ({ s with fb := b.fb, redraw := true }.setVF (flagByte b.hit)).advance

end Sys2Proof.Machine
end

