-- ==== Sys2Proof/Machine/IndexMemory.lean ====
section
/-! DEFINITION. Index-register and memory instructions (spec 43_index_memory R125-R131). `Fx33`, `Fx55` and `Fx65` leave `I`
as it was (R129). Each meaning is phases 3 and 4 of the step. -/

namespace Sys2Proof.Machine

/-- `Annn` (R125): all 16 bits of `I` are written. -/
def execLdI (nnn : Addr12) (s : State) : Result := .next (s.setI (addrImm nnn)).advance

/-- `Fx1E` (R126): mod 65536, no flag. -/
def execAddI (x : Nibble) (s : State) : Result := .next (s.setI (s.i + s.wideV x)).advance

/-- `Fx29` (R127): the whole of `V[x]`, no mask. -/
def execLdF (x : Nibble) (s : State) : Result := .next (s.setI (glyphAddress (s.getV x))).advance

/-- `Fx33` (R128): hundreds, tens, ones at `I`, `I + 1`, `I + 2`. -/
def execLdB (x : Nibble) (s : State) : Result := .next (s.storeBytes (s.indexed 0) (bcdDigits (s.getV x))).advance

/-- `Fx55` (R130): registers 0 .. x. -/
def execStRegs (x : Nibble) (s : State) : Result := .next (s.storeBytes (s.indexed 0) (s.block x)).advance

/-- `Fx65` (R131): registers 0 .. x. -/
def execLdRegs (x : Nibble) (s : State) : Result := .next (s.loadBlock (s.indexed 0) x).advance

end Sys2Proof.Machine
end

