-- ==== Sys2Proof/Machine/KeypadTimers.lean ====
section
/-! DEFINITION. Keypad and timer instructions (spec 45_keypad_timers R145-R151). Each meaning is phases 3 and 4 of the step;
the tick of the same step follows in `step` (40_step_cycle R96). -/

namespace Sys2Proof.Machine

/-- `Ex9E` (R145). -/
def execSkp (x : Nibble) (s : State) : Result := .next (s.skipIf (s.key (s.keyIndex x)))

/-- `ExA1` (R146). -/
def execSknp (x : Nibble) (s : State) : Result := .next (s.skipIf (!s.key (s.keyIndex x)))

/-- `Fx07` (R148): `DT` before this step's tick. -/
def execLdVxDt (x : Nibble) (s : State) : Result := .next (s.setV x s.dt).advance

/-- `Fx0A` (R147): level-sensitive, the lowest pressed key; with none pressed nothing is written and `PC` stays, so the
same instruction is fetched again. -/
def execLdVxKey (x : Nibble) (s : State) : Result :=
  match s.lowestKey with
  | some k => .next (s.setV x (k.setWidth 8)).advance
  | none => .next s

/-- `Fx15` (R149). -/
def execLdDtVx (x : Nibble) (s : State) : Result := .next { s with dt := s.getV x }.advance

/-- `Fx18` (R150). -/
def execLdStVx (x : Nibble) (s : State) : Result := .next { s with st := s.getV x }.advance

end Sys2Proof.Machine
end

