-- ==== Sys2Proof/Machine/LoadAlu.lean ====
section
/-! DEFINITION. Register load, arithmetic, bitwise, shift and random instructions (spec 42_load_alu R110-R124). Each meaning
is phases 3 and 4 of the step. -/

namespace Sys2Proof.Machine

/-- `V[x] <- b` and the default advance. -/
def State.writeAndAdvance (s : State) (x : Nibble) (b : Byte) : Result := .next (s.setV x b).advance

/-- A flag-setter's two writes (R122, R123) and the default advance. -/
def State.flagAndAdvance (s : State) (x : Nibble) (flag result : Byte) : Result :=
  .next (s.setFlagThenResult x flag result).advance

/-- `6xkk` (R110). -/
def execLdImm (x : Nibble) (kk : Byte) (s : State) : Result := s.writeAndAdvance x kk

/-- `7xkk` (R111): no flag. -/
def execAddImm (x : Nibble) (kk : Byte) (s : State) : Result := s.writeAndAdvance x (s.getV x + kk)

/-- `8xy0` (R112). -/
def execLdReg (x y : Nibble) (s : State) : Result := s.writeAndAdvance x (s.getV y)

/-- `8xy1` (R113): `VF` is not cleared. -/
def execOrReg (x y : Nibble) (s : State) : Result := s.writeAndAdvance x (s.getV x ||| s.getV y)

/-- `8xy2` (R114): `VF` is not cleared. -/
def execAndReg (x y : Nibble) (s : State) : Result := s.writeAndAdvance x (s.getV x &&& s.getV y)

/-- `8xy3` (R115): `VF` is not cleared. -/
def execXorReg (x y : Nibble) (s : State) : Result := s.writeAndAdvance x (s.getV x ^^^ s.getV y)

/-- `8xy4` (R116). -/
def execAddReg (x y : Nibble) (s : State) : Result :=
  s.flagAndAdvance x (carryFlag (s.getV x) (s.getV y)) (s.getV x + s.getV y)

/-- `8xy5` (R117): the flag's comparison is strict. -/
def execSubReg (x y : Nibble) (s : State) : Result :=
  s.flagAndAdvance x (greaterFlag (s.getV x) (s.getV y)) (s.getV x - s.getV y)

/-- `8xy6` (R118): `y` is ignored. -/
def execShr (x _y : Nibble) (s : State) : Result := s.flagAndAdvance x (lowBitFlag (s.getV x)) (s.getV x >>> 1)

/-- `8xy7` (R119): the flag's comparison is strict. -/
def execSubnReg (x y : Nibble) (s : State) : Result :=
  s.flagAndAdvance x (greaterFlag (s.getV y) (s.getV x)) (s.getV y - s.getV x)

/-- `8xyE` (R120): `y` is ignored. -/
def execShl (x _y : Nibble) (s : State) : Result := s.flagAndAdvance x (highBitFlag (s.getV x)) (s.getV x <<< 1)

/-- The random source's next byte, and the state after taking it (R124; free value, log entry 1). -/
def State.drawByte (s : State) : Byte × State := (Config.rnd s.draws, { s with draws := s.draws + 1 })

/-- `Cxkk` (R124): takes one byte of the random source. -/
def execRnd (x : Nibble) (kk : Byte) (s : State) : Result :=
  s.drawByte.2.writeAndAdvance x (s.drawByte.1 &&& kk)

end Sys2Proof.Machine
end

