-- ==== Sys2Proof/Machine/Step.lean ====
section
/-! DEFINITION. One step of the core (spec 40_step_cycle R90): fetch, decode, execute with the `PC` advance, timer tick. -/

namespace Sys2Proof.Machine

/-- `step` (R90): a word that matches no row raises `DecodeError` (R92); the tick runs in every step that raises nothing
(R96). -/
def step (s : State) : Host.Outcome State Fault Refusal :=
  match decode s.fetch with
  | some i => finishStep (exec i s)
  | none => raise (.decodeError s.fetch)

/-- `s` with the instruction whose bits are `w` stored at `PC`, where `step` fetches its next instruction. It stands for
the host's `load` (70_reset R177, R183; log entry 6). -/
def State.withFetchWord (s : State) (nbits w : Nat) : State := s.placeAtPc (tableBytes nbits w)

end Sys2Proof.Machine
end

