-- ==== Sys2Proof/Machine/HostOps.lean ====
section
/-! DEFINITION. The host's operations on the core (spec 70_reset R175-R182): construction, `reset`, `load`, key write, frame
consume, timer read, and `step` as the host sees it. They happen between steps only (20_memory R61, 70_reset R181); `step`
calls none of them. -/

namespace Sys2Proof.Machine

/-- Construction (R175, 10_state R35) with `FONT` as an argument (10_state R31). With the default font it is
`State.reset`. -/
def State.construct (font : Vector Byte 80) : State := State.reset.storeBytes Config.fontBase font.toList

/-- `MEM[a] <- 0` for `a` in 0x200 .. 0xFFF: those addresses read as 0 when unlisted. -/
def Memory.clearProgram (m : Memory) : Memory := m.filter (fun c => decide (c.1 < Config.romBase))

/-- The host operation `reset` (R176, 10_state R36): `MEM[0x000..0x1FF]` is unchanged. The random source is outside the
core (10_state R34), so `draws` goes on (log entry 2). -/
def State.hostReset (s : State) : State := { State.reset with mem := Memory.clearProgram s.mem, draws := s.draws }

/-- The failure result of `load` (60_exceptions R159): the byte count is 0 or above 3584. Safe: no state changes. -/
inductive LoadError where
  | loadError
deriving DecidableEq, Repr

/-- The host operation `load` (R177): changes memory at 0x200 up, and no register. -/
def State.load (s : State) (bytes : List Byte) : Except LoadError State :=
  if bytes.length = 0 ∨ bytes.length > Config.romMax then .error .loadError
  else .ok (s.storeBytes Config.romBase bytes)

/-- The result values of `load` (60_exceptions R159, R162). -/
inductive LoadResult where
  | success
  | loadError
deriving DecidableEq, Repr

/-- The numbers of R162 for `load`. -/
def LoadResult.code : LoadResult → Nat
  | .success => 0
  | .loadError => 1

/-- The result of a failed load. -/
def LoadError.result : LoadError → LoadResult
  | .loadError => .loadError

/-- `load` as the host calls it: the result and the state after. A failed load leaves every item of state as it was
(60_exceptions R159). -/
def State.hostLoad (s : State) (bytes : List Byte) : LoadResult × State :=
  match s.load bytes with
  | .ok t => (.success, t)
  | .error e => (e.result, s)

/-- The host's key write (R178): `KEY[k] <- pressed`. -/
def State.keyWrite (s : State) (k : Nibble) (pressed : Bool) : State :=
  { s with keys := s.keys.set k.toNat pressed k.isLt }

/-- Frame consume (R179): read `FB` and `REDRAW`, then clear `REDRAW`. -/
def State.consumeFrame (s : State) : (BitVec 2048 × Bool) × State := ((s.fb, s.redraw), { s with redraw := false })

/-- Timer read (R180): `DT` and `ST`. -/
def State.timerRead (s : State) : Byte × Byte := (s.dt, s.st)

/-- The sound output, the predicate `ST > 0` (60_exceptions R171). -/
def State.tone (s : State) : Bool := decide (0 < s.st)

/-- The result values of a step (60_exceptions R155, R162). -/
inductive StepResult where
  | ok
  | decodeError (opc : Word)
  | stackOverflow
  | stackUnderflow
deriving DecidableEq, Repr

/-- The numbers of R162 for `step`. -/
def StepResult.code : StepResult → Nat
  | .ok => 0
  | .decodeError _ => 1
  | .stackOverflow => 2
  | .stackUnderflow => 3

/-- The result of a fatal condition. -/
def Fault.result : Fault → StepResult
  | .decodeError opc => .decodeError opc
  | .stackOverflow => .stackOverflow
  | .stackUnderflow => .stackUnderflow

/-- `step` as the host calls it (R182): the result and the state after. A fatal step leaves every item of state as it was
(60_exceptions R160). A refusal, which `exec` never gives, has no result value. -/
def State.hostStep (s : State) : Option (StepResult × State) :=
  match step s with
  | .next t => some (.ok, t)
  | .fault f => some (f.result, s)
  | .refused _ => none

end Sys2Proof.Machine
end

