-- ==== Sys2Proof/Safety.lean ====
section
/-! DEFINITION. The terms statements use: what an instruction may write, what a step left unchanged, the table of new `PC`
values (spec 40_step_cycle R95), the geometry of a sprite (44_display R136, R137), what no program can observe, and when a
state is a safe place to end a run. -/

namespace Sys2Proof

/-! ### What an instruction may write -/

/-- The registers an instruction writes, its destination or `VF` as a flag (10_state R22). -/
def Instr.regsWritten : Instr → List Nibble
  | .ldImm x _ | .addImm x _ | .ldReg x _ | .orReg x _ | .andReg x _ | .xorReg x _ | .rnd x _ | .ldVxDt x
  | .ldVxKey x => [x]
  | .addReg x _ | .subReg x _ | .shr x _ | .subnReg x _ | .shl x _ => [15, x]
  | .drw _ _ _ => [15]
  | .ldRegs x => (List.range (x.toNat + 1)).map (BitVec.ofNat 4)
  | .cls | .ret | .jp _ | .call _ | .seImm _ _ | .sneImm _ _ | .seReg _ _ | .sneReg _ _ | .ldI _ | .jpV0 _ | .skp _
  | .sknp _ | .ldDtVx _ | .ldStVx _ | .addI _ | .ldF _ | .ldB _ | .stRegs _ => []

/-- `00E0` and `Dxyn`, the two that write the framebuffer and `REDRAW` (10_state R29, R30). -/
def Instr.paints : Instr → Bool
  | .cls | .drw _ _ _ => true
  | _ => false

/-- `Fx33` and `Fx55`, the two that store to memory (10_state R37, 20_memory R56). -/
def Instr.stores : Instr → Bool
  | .ldB _ | .stRegs _ => true
  | _ => false

/-- `Annn`, `Fx1E` and `Fx29`, the three that write `I` (43_index_memory R129). -/
def Instr.writesI : Instr → Bool
  | .ldI _ | .addI _ | .ldF _ => true
  | _ => false

/-- `2nnn` and `00EE`, the two that use the call stack (10_state R25). -/
def Instr.usesStack : Instr → Bool
  | .call _ | .ret => true
  | _ => false

/-- `Cxkk`, which alone takes a random byte (42_load_alu R124). -/
def Instr.takesRandom : Instr → Bool
  | .rnd _ _ => true
  | _ => false

end Sys2Proof

namespace Sys2Proof.Machine

/-! ### What is unchanged -/

/-- Every general register reads as before. -/
def SameRegs (s t : State) : Prop := ∀ r, t.getV r = s.getV r

/-- Every register but those listed reads as before. -/
def SameRegsBut (xs : List Nibble) (s t : State) : Prop := ∀ r, r ∉ xs → t.getV r = s.getV r

/-- Every byte of memory reads as before. -/
def SameMemory (s t : State) : Prop := ∀ a, t.memRead a = s.memRead a

/-- `STACK` and `SP` are as before. -/
def SameStack (s t : State) : Prop := t.stack = s.stack ∧ t.sp = s.sp

/-- `DT` and `ST` are as before. -/
def SameTimers (s t : State) : Prop := t.dt = s.dt ∧ t.st = s.st

/-- `FB` and `REDRAW` are as before. -/
def SameDisplay (s t : State) : Prop := t.fb = s.fb ∧ t.redraw = s.redraw

/-- `KEY` is as before and the random source gave no byte. -/
def SameInputs (s t : State) : Prop := t.keys = s.keys ∧ t.draws = s.draws

/-- Everything but `V` and `PC` is as before. -/
def OnlyRegsAndPc (s t : State) : Prop :=
  t.i = s.i ∧ SameMemory s t ∧ SameStack s t ∧ SameTimers s t ∧ SameDisplay s t ∧ SameInputs s t

/-- Everything but `PC` is as before. -/
def OnlyPc (s t : State) : Prop := SameRegs s t ∧ OnlyRegsAndPc s t

/-- Everything but `I` and `PC` is as before. -/
def OnlyIAndPc (s t : State) : Prop :=
  SameRegs s t ∧ SameMemory s t ∧ SameStack s t ∧ SameTimers s t ∧ SameDisplay s t ∧ SameInputs s t

/-- Everything but `STACK`, `SP` and `PC` is as before. -/
def OnlyStackAndPc (s t : State) : Prop :=
  SameRegs s t ∧ t.i = s.i ∧ SameMemory s t ∧ SameTimers s t ∧ SameDisplay s t ∧ SameInputs s t

/-- Everything but memory and `PC` is as before. -/
def OnlyMemoryAndPc (s t : State) : Prop :=
  SameRegs s t ∧ t.i = s.i ∧ SameStack s t ∧ SameTimers s t ∧ SameDisplay s t ∧ SameInputs s t

/-- The default advance: `(PC + 2) mod 65536` (R95). -/
def Advanced (s t : State) : Prop := t.pc.toNat = (s.pc.toNat + 2) % 65536

/-! ### The table of new PC values (R95) -/

/-- R95's skip row: `PC + 4` if the condition holds, else `PC + 2`, mod 65536. -/
def skipPc (s : State) (c : Prop) [Decidable c] : Nat := (s.pc.toNat + if c then 4 else 2) % 65536

/-- R95's table, as a number; for `00EE` the cell is the one `SP - 1` names. -/
def pcAfter (s : State) : Instr → Nat
  | .jp nnn | .call nnn => nnn.toNat
  | .ret => (s.stack.toList.getD (s.sp.val - 1) 0).toNat
  | .jpV0 nnn => (nnn.toNat + (s.getV 0).toNat) % 65536
  | .seImm x kk => skipPc s (s.getV x = kk)
  | .sneImm x kk => skipPc s (s.getV x ≠ kk)
  | .seReg x y => skipPc s (s.getV x = s.getV y)
  | .sneReg x y => skipPc s (s.getV x ≠ s.getV y)
  | .skp x => skipPc s (s.key (s.keyIndex x) = true)
  | .sknp x => skipPc s (s.key (s.keyIndex x) = false)
  | .ldVxKey _ => if ∃ k, s.key k = true then (s.pc.toNat + 2) % 65536 else s.pc.toNat
  | .cls | .ldImm _ _ | .addImm _ _ | .ldReg _ _ | .orReg _ _ | .andReg _ _ | .xorReg _ _ | .addReg _ _ | .subReg _ _
  | .shr _ _ | .subnReg _ _ | .shl _ _ | .ldI _ | .rnd _ _ | .drw _ _ _ | .ldVxDt _ | .ldDtVx _ | .ldStVx _ | .addI _
  | .ldF _ | .ldB _ | .stRegs _ | .ldRegs _ => (s.pc.toNat + 2) % 65536

/-! ### Sprite geometry, without loops (R136, R137) -/

/-- Whether the sprite of `Dxyn` has a set bit on the cell `FB[k]`: the cell's row is the sprite row `(k div 64 - y0) mod
32`, its column the sprite column `(k mod 64 - x0) mod 64`. -/
def State.spriteCovers (s : State) (x y n : Nibble) (k : Nat) : Bool :=
  let row := (k / 64 + 32 - (s.getV y).toNat % 32) % 32
  let col := (k % 64 + 64 - (s.getV x).toNat % 64) % 64
  decide (k < 2048) && decide (row < n.toNat) && decide (col < 8) &&
    (s.memRead (s.i.toNat + row)).getLsbD (7 - col)

/-! ### What no program can observe -/

/-- Equal as addresses: the low 12 bits agree (R50). -/
def SameAddress (a b : Word) : Prop := a.toNat % 4096 = b.toNat % 4096

/-- Two states that differ at most in bits 15..12 of `I`, of `PC` and of the stack cells (10_state R23, R24). -/
def AliasedStates (s t : State) : Prop :=
  SameAddress s.i t.i ∧ SameAddress s.pc t.pc ∧
  (∀ k : Fin 16, SameAddress s.stack[k] t.stack[k]) ∧
  t = { s with i := t.i, pc := t.pc, stack := t.stack }

/-- Two states that differ at most in the outputs no instruction reads, `ST` and `REDRAW` (10_state R27, R30). -/
def SameButOutputs (s t : State) : Prop := t = { s with st := t.st, redraw := t.redraw }

/-- Two answers of a step agree up to a relation on the next states: the same fault, or related next states. -/
def SimilarResults (rel : State → State → Prop) : Result → Result → Prop
  | .next s, .next t => rel s t
  | .fault f, .fault g => f = g
  | _, _ => False

/-! ### Ends of a run -/

/-- The next step is fatal: a fault state, never final (60_exceptions R161). -/
def State.Fatal (s : State) : Prop := ∃ f, step s = .fault f

/-- The next instruction is a `1nnn` whose target is its own address (70_reset R187). -/
def State.SelfJump (s : State) : Prop := ∃ nnn : Addr12, decode s.fetch = some (.jp nnn) ∧ nnn.toNat = s.pc.toNat

/-- The terminal state R187 offers: a self-jump with both timers at 0. -/
def State.Idle (s : State) : Prop := s.SelfJump ∧ s.dt = 0 ∧ s.st = 0

/-- A run of `k` steps is safe if no step of it is fatal. -/
def SafeFor (k : Nat) (s : State) : Prop := ∃ t, core.run k s = .next t

end Sys2Proof.Machine
end

