-- ==== Sys2Proof/Certificates/Slice0/Obligations.lean ====
section
/-! DEFINITION. The statements for the provers, in the order of the spec's files: encoding, the step, whole-machine rules,
each instruction's effect with its frame, the host's operations. Each docstring cites the rules it formalises. -/

open Sys2Proof Sys2Proof.Machine

/-! ### Encoding (30_encoding) -/

/-- R70, R71, R75-R77: decoding an encoded instruction gives it back, with every operand at every value. Every
instruction is well formed (R73). Which bits a pattern fixes is the spec's decision D2. -/
def Obligations.DecodeOfEncodeIsIdentity : Prop :=
  ∀ i : Instr, i.wellFormed = true ∧ decode (encode i) = some i

/-- R78, R79: each legal word has one meaning, and encoding that meaning gives the word back. The spec's decisions D2
and D22 (the ignored `y` of the shifts is kept). -/
def Obligations.EncodeOfDecodeIsTheWord : Prop :=
  ∀ (w : Word) (i : Instr), decode w = some i → encode i = w

/-- R70, R53: an instruction's two bytes, high byte first, decode to it and leave the bytes after it. -/
def Obligations.BytesDecodeBigEndian : Prop :=
  ∀ (i : Instr) (rest : List Byte),
    decodeBytes (encodeBytes i ++ rest) = .ok (i, rest) ∧
    ∃ hi lo, encodeBytes i = [hi, lo] ∧ (encode i).toNat = 256 * hi.toNat + lo.toNat

/-- R74: the opcode map has 34 rows, at most one selects a word, and a word decodes to an instruction of a row exactly
when `(w and mask) = match`. The spec's decision D2. -/
def Obligations.DecodeSelectsTheTableRow : Prop :=
  opcodeTable.length = 34 ∧
  (∀ (w : Word) (r q : Row), r ∈ opcodeTable → q ∈ opcodeTable → r.selects w = true → q.selects w = true → r = q) ∧
  (∀ (w : Word) (i : Instr), decode w = some i → i.row ∈ opcodeTable) ∧
  (∀ (w : Word) (r : Row), r ∈ opcodeTable →
    ((∃ i, decode w = some i ∧ i.row = r) ↔ w &&& r.format.mask = r.pattern))

/-- 95_test_vectors T-E1, T-E2: words of the spec, written out bit by bit, decode to what the spec says. The illegal
words are the spec's decision D2. -/
def Obligations.SpecWordsDecode : Prop :=
  decode 0b1101000100100101#16 = some (.drw 1 2 5) ∧ decode 0b1000101010110100#16 = some (.addReg 0xA 0xB) ∧
  decode 0b0011101001111111#16 = some (.seImm 0xA 0x7F) ∧ decode 0b0001101010111100#16 = some (.jp 0xABC) ∧
  decode 0b1111010100011110#16 = some (.addI 5) ∧ decode 0b0000000011101110#16 = some .ret ∧
  decode 0b1110101010011110#16 = some (.skp 0xA) ∧ decode 0x0000#16 = none ∧ decode 0x5121#16 = none ∧
  decode 0x8AB8#16 = none ∧ decode 0x9AB1#16 = none ∧ decode 0xE09F#16 = none ∧ decode 0xF230#16 = none

/-! ### The step (40_step_cycle, 60_exceptions) -/

/-- R53: the byte at the lower address is the high byte of the fetched opcode, the byte at the higher address its low byte;
each address is reduced mod 4096 on its own (R50). -/
def Obligations.FetchReadsBigEndian : Prop :=
  ∀ (s : State) (hi lo : Byte),
    s.memRead (s.pc.toNat % 4096) = hi → s.memRead ((s.pc.toNat + 1) % 4096) = lo →
    s.fetch.toNat = 256 * hi.toNat + lo.toNat ∧ s.fetch.extractLsb' 8 8 = hi ∧ s.fetch.extractLsb' 0 8 = lo

/-- R90: when the bytes at `PC` and `PC + 1` decode to an instruction, `step` is that instruction's `exec`, with the timer
tick added if it completes and its fatal result kept if it raises. -/
def Obligations.StepRunsTheDecodedInstruction : Prop :=
  ∀ (s : State) (i : Instr), decodeBytes [s.memRead s.pc.toNat, s.memRead (s.pc.toNat + 1)] = .ok (i, []) →
    (∀ t, exec i s = .next t → step s = .next t.tick) ∧ (∀ f, exec i s = .fault f → step s = .fault f)

/-- R96: in every step that raises nothing, whatever the instruction, each timer ends one below what it was before the
tick, stopping at 0: below the value an `Fx15` or `Fx18` of this step wrote, else below its old value. That a waiting
`Fx0A` ticks is the spec's decision D10, that the tick sees the value just written its decision D20. -/
def Obligations.TickDecrementsAndSaturates : Prop :=
  ∀ (s t : State) (i : Instr), decode s.fetch = some i → step s = .next t →
    t.dt.toNat = (match i with | .ldDtVx x => (s.getV x).toNat | _ => s.dt.toNat) - 1 ∧
    t.st.toNat = (match i with | .ldStVx x => (s.getV x).toNat | _ => s.st.toNat) - 1

/-- R155: a step ends in exactly four ways, and each fatal way has exactly the cause the spec gives it (R156, R157,
R158). That the result carries the word is the spec's decision D32. -/
def Obligations.StepEndsInExactlyFourWays : Prop :=
  ∀ s : State,
    (∀ w, step s = .fault (.decodeError w) ↔ decode s.fetch = none ∧ w = s.fetch) ∧
    (step s = .fault .stackOverflow ↔ (∃ nnn, decode s.fetch = some (.call nnn)) ∧ s.sp = 16) ∧
    (step s = .fault .stackUnderflow ↔ decode s.fetch = some .ret ∧ s.sp = 0) ∧
    (∀ r, step s ≠ .refused r) ∧
    ((∃ t, step s = .next t) ↔ ¬∃ f, step s = .fault f)

/-- R156: the step of a word that matches no row raises `DecodeError` with that word, for each of the illegal words.
Which words are illegal is the spec's decision D2, that the result carries the word its decision D32. -/
def Obligations.IllegalWordRaisesDecodeError : Prop :=
  ∀ s : State, (∀ r ∈ opcodeTable, s.fetch &&& r.format.mask ≠ r.pattern) → step s = .fault (.decodeError s.fetch)

/-- R160, R161: seen from the host, a step always returns a result; a fatal step leaves every item of state as it was,
so the same fatal result comes again. The spec's decisions D7 (nothing changes) and D8 (the numbers). -/
def Obligations.FatalStepChangesNothing : Prop :=
  ∀ s : State, ∃ r t, s.hostStep = some (r, t) ∧ (r = .ok ↔ step s = .next t) ∧
    (r ≠ .ok → t = s ∧ t.hostStep = some (r, t) ∧ (r.code = 1 ∨ r.code = 2 ∨ r.code = 3))

/-- R95: every instruction that completes leaves `PC` as the table says. The 16-bit `PC` is the spec's decision D4,
the pushed return address D5, the key index D11. -/
def Obligations.PcFollowsTheTable : Prop :=
  ∀ (s t : State) (i : Instr), exec i s = .next t → t.pc.toNat = pcAfter s i

/-! ### Whole-machine rules (10_state, 20_memory) -/

/-- 20_memory R50, 10_state R32: every step keeps memory in its canonical form, so equal memories stay equal lists.
The canonical form is the model's representation (log entry 4). -/
def Obligations.StepKeepsMemoryCanonical : Prop :=
  ∀ s t : State, s.mem.wf → step s = .next t → t.mem.wf

/-- 10_state R35: memory at reset is in the canonical form. The canonical form is the model's representation (log
entry 4). -/
def Obligations.ResetMemoryIsCanonical : Prop := State.reset.mem.wf

/-- R175-R179: every operation of the host keeps memory in its canonical form. The canonical form is the model's
representation (log entry 4). -/
def Obligations.HostOperationsKeepMemoryCanonical : Prop :=
  (∀ font, (State.construct font).mem.wf) ∧
  ∀ s : State, s.mem.wf → s.hostReset.mem.wf ∧ (∀ bytes t, s.load bytes = .ok t → t.mem.wf) ∧
    (∀ k p, (s.keyWrite k p).mem.wf) ∧ s.consumeFrame.2.mem.wf

/-- R22, R93: an instruction that completes changes no register but its destination and, in a flag-setter, `VF`. -/
def Obligations.RegistersChangeOnlyWhereNamed : Prop :=
  ∀ (s t : State) (i : Instr), exec i s = .next t → SameRegsBut i.regsWritten s t

/-- R28: no instruction writes `KEY`, and the tick does not either. -/
def Obligations.NoInstructionWritesTheKeypad : Prop :=
  ∀ s t : State, step s = .next t → ∀ k, t.key k = s.key k

/-- R37, R56: no instruction but `Fx33` and `Fx55` changes a byte of memory. -/
def Obligations.OnlyBcdAndBlockStoreWriteMemory : Prop :=
  ∀ (s t : State) (i : Instr), i.stores = false → exec i s = .next t → SameMemory s t

/-- R129, R23: no instruction but `Annn`, `Fx1E` and `Fx29` changes `I`. That `Fx33`, `Fx55`, `Fx65` and `Dxyn` leave
it is the spec's decision D18. -/
def Obligations.OnlyThreeInstructionsWriteIndex : Prop :=
  ∀ (s t : State) (i : Instr), i.writesI = false → exec i s = .next t → t.i = s.i

/-- R25: no instruction but `2nnn` and `00EE` touches `STACK` or `SP`. -/
def Obligations.OnlyCallAndReturnTouchTheStack : Prop :=
  ∀ (s t : State) (i : Instr), i.usesStack = false → exec i s = .next t → SameStack s t

/-- R29: no instruction but `00E0` and `Dxyn` changes a cell of the framebuffer. -/
def Obligations.OnlyClearAndDrawWriteCells : Prop :=
  ∀ (s t : State) (i : Instr), i.paints = false → exec i s = .next t → ∀ k, t.cell k = s.cell k

/-- R30: a step sets `REDRAW` exactly when it executes `00E0` or `Dxyn`, and no step clears it. The spec's decision
D19. -/
def Obligations.RedrawIsSetByClearAndDrawAlone : Prop :=
  ∀ (s t : State) (i : Instr), decode s.fetch = some i → step s = .next t → t.redraw = (s.redraw || i.paints)

/-- R124: a step takes one byte of the random source exactly when it executes `Cxkk`. The count is the model's own
field (log entry 1). The spec's decision D15. -/
def Obligations.OnlyRandomTakesAByte : Prop :=
  ∀ (s t : State) (i : Instr), decode s.fetch = some i → step s = .next t →
    t.draws = s.draws + (if i.takesRandom then 1 else 0)

/-- R23, R24: two machines that differ only in bits 15..12 of `I`, of `PC` and of the stack cells run alike: they raise the
same fatal result, or both complete and still differ only there. Both runs are given the same random bytes: their counts
`draws` are equal, so a `Cxkk` reads the same byte in both (DESIGN CHOICE, log entry 1). Marked derived by the spec, with
its decision D4. -/
def Obligations.HighAddressBitsAreUnobservable : Prop :=
  ∀ s t : State, AliasedStates s t → SimilarResults AliasedStates (step s) (step t)

/-- R27, R30: no instruction reads `ST` or `REDRAW`: two machines that differ only there raise the same fatal result, or both
complete and still differ only there. Both runs are given the same random bytes: their counts `draws` are equal, so a
`Cxkk` reads the same byte in both (DESIGN CHOICE, log entry 1). -/
def Obligations.SoundTimerAndRedrawAreNeverRead : Prop :=
  ∀ s t : State, SameButOutputs s t → SimilarResults SameButOutputs (step s) (step t)

/-- R60: the two bytes an `Fx55` stores at the next instruction's address are what the next step fetches. Marked
derived by the spec. -/
def Obligations.StoredInstructionIsFetchedNext : Prop :=
  ∀ (s : State) (x : Nibble) (k : Nat), decode s.fetch = some (.stRegs x) → k < x.toNat →
    s.indexed k % 4096 = (s.pc.toNat + 2) % 4096 →
    ∃ t, step s = .next t ∧
      t.fetch.toNat = 256 * (s.getV (BitVec.ofNat 4 k)).toNat + (s.getV (BitVec.ofNat 4 (k + 1))).toNat

/-! ### Control transfer (41_control_flow) -/

/-- R101: `1nnn`. -/
def Obligations.JumpSetsPc : Prop :=
  ∀ (s : State) (nnn : Addr12), ∃ t, exec (.jp nnn) s = .next t ∧ t.pc.toNat = nnn.toNat ∧ OnlyPc s t

/-- R107: `Bnnn` adds `V[0]`, whatever the top digit of `nnn` is, and the sum is not reduced to 12 bits. The spec's
decision D4. -/
def Obligations.JumpWithOffsetAddsV0 : Prop :=
  ∀ (s : State) (nnn : Addr12),
    ∃ t, exec (.jpV0 nnn) s = .next t ∧ t.pc.toNat = nnn.toNat + (s.getV 0).toNat ∧ t.pc.toNat ≤ 0x10FE ∧ OnlyPc s t

/-- R102: `2nnn` below the limit pushes the address of the instruction after the call; at `SP = 16` it raises. The
spec's decisions D5 (what is pushed) and D6 (sixteen cells). -/
def Obligations.CallPushesTheReturnAddress : Prop :=
  ∀ (s : State) (nnn : Addr12),
    (s.sp ≠ 16 → ∃ t, exec (.call nnn) s = .next t ∧ t.pc.toNat = nnn.toNat ∧ t.sp.val = s.sp.val + 1 ∧
      (∀ k : Fin 16, k.val = s.sp.val → t.stack[k].toNat = (s.pc.toNat + 2) % 65536) ∧
      (∀ k : Fin 16, k.val ≠ s.sp.val → t.stack[k] = s.stack[k]) ∧ OnlyStackAndPc s t) ∧
    (s.sp = 16 → exec (.call nnn) s = .fault .stackOverflow)

/-- R100: `00EE` above zero takes the cell just uncovered as the new `PC`, and that cell keeps its value; at `SP = 0`
it raises. The spec's decisions D5 and D6. -/
def Obligations.ReturnPopsIntoPc : Prop :=
  ∀ s : State,
    (s.sp ≠ 0 → ∃ t, exec .ret s = .next t ∧ t.sp.val + 1 = s.sp.val ∧
      (∀ k : Fin 16, k.val + 1 = s.sp.val → t.pc = s.stack[k]) ∧ t.stack = s.stack ∧ OnlyStackAndPc s t) ∧
    (s.sp = 0 → exec .ret s = .fault .stackUnderflow)

/-- R100, R102: a return at a state whose stack is as the call left it restores `SP` and lands on the instruction
after the call. The spec's decision D5. -/
def Obligations.CallThenReturnRoundTrip : Prop :=
  ∀ (s : State) (nnn : Addr12), s.sp ≠ 16 →
    ∃ t, exec (.call nnn) s = .next t ∧
      ∀ u : State, SameStack t u → ∃ w, exec .ret u = .next w ∧ w.sp = s.sp ∧ w.pc.toNat = (s.pc.toNat + 2) % 65536

/-- R103, R104: the skips on an immediate. -/
def Obligations.SkipsOnImmediate : Prop :=
  ∀ (s : State) (x : Nibble) (kk : Byte),
    (∃ t, exec (.seImm x kk) s = .next t ∧
      t.pc.toNat = (s.pc.toNat + if s.getV x = kk then 4 else 2) % 65536 ∧ OnlyPc s t) ∧
    (∃ t, exec (.sneImm x kk) s = .next t ∧
      t.pc.toNat = (s.pc.toNat + if s.getV x = kk then 2 else 4) % 65536 ∧ OnlyPc s t)

/-- R105, R106: the skips on two registers. -/
def Obligations.SkipsOnRegisters : Prop :=
  ∀ (s : State) (x y : Nibble),
    (∃ t, exec (.seReg x y) s = .next t ∧
      t.pc.toNat = (s.pc.toNat + if s.getV x = s.getV y then 4 else 2) % 65536 ∧ OnlyPc s t) ∧
    (∃ t, exec (.sneReg x y) s = .next t ∧
      t.pc.toNat = (s.pc.toNat + if s.getV x = s.getV y then 2 else 4) % 65536 ∧ OnlyPc s t)

/-! ### Load, arithmetic, logic, shifts, random (42_load_alu) -/

/-- R110, R112: `6xkk` and `8xy0`. -/
def Obligations.LoadImmediateAndCopy : Prop :=
  ∀ (s : State) (x y : Nibble) (kk : Byte),
    (∃ t, exec (.ldImm x kk) s = .next t ∧ t.getV x = kk ∧
      SameRegsBut [x] s t ∧ Advanced s t ∧ OnlyRegsAndPc s t) ∧
    (∃ t, exec (.ldReg x y) s = .next t ∧ t.getV x = s.getV y ∧
      SameRegsBut [x] s t ∧ Advanced s t ∧ OnlyRegsAndPc s t)

/-- R111: `7xkk` wraps mod 256 and writes no flag. -/
def Obligations.AddImmediateWrapsWithoutFlag : Prop :=
  ∀ (s : State) (x : Nibble) (kk : Byte),
    ∃ t, exec (.addImm x kk) s = .next t ∧ (t.getV x).toNat = ((s.getV x).toNat + kk.toNat) % 256 ∧
      SameRegsBut [x] s t ∧ Advanced s t ∧ OnlyRegsAndPc s t

/-- R113, R114, R115: `8xy1`, `8xy2`, `8xy3` act on each bit alone and leave `VF` unless it is the destination. -/
def Obligations.BitwiseForms : Prop :=
  ∀ (s : State) (x y : Nibble),
    (∃ t, exec (.orReg x y) s = .next t ∧
      (∀ k < 8, (t.getV x).getLsbD k = ((s.getV x).getLsbD k || (s.getV y).getLsbD k)) ∧
      SameRegsBut [x] s t ∧ Advanced s t ∧ OnlyRegsAndPc s t) ∧
    (∃ t, exec (.andReg x y) s = .next t ∧
      (∀ k < 8, (t.getV x).getLsbD k = ((s.getV x).getLsbD k && (s.getV y).getLsbD k)) ∧
      SameRegsBut [x] s t ∧ Advanced s t ∧ OnlyRegsAndPc s t) ∧
    (∃ t, exec (.xorReg x y) s = .next t ∧
      (∀ k < 8, (t.getV x).getLsbD k = ((s.getV x).getLsbD k != (s.getV y).getLsbD k)) ∧
      SameRegsBut [x] s t ∧ Advanced s t ∧ OnlyRegsAndPc s t)

/-- R116: `8xy4`; with `x = 15` the sum is what `VF` ends as (R123). The order of the two writes is the spec's
decision D1. -/
def Obligations.AddSetsCarry : Prop :=
  ∀ (s : State) (x y : Nibble),
    ∃ t, exec (.addReg x y) s = .next t ∧
      (t.getV x).toNat = ((s.getV x).toNat + (s.getV y).toNat) % 256 ∧
      (x ≠ 15 → t.getV 15 = if (s.getV x).toNat + (s.getV y).toNat > 255 then 1 else 0) ∧
      SameRegsBut [x, 15] s t ∧ Advanced s t ∧ OnlyRegsAndPc s t

/-- R117, R119: `8xy5` and `8xy7` subtract mod 256; the flag is 1 iff the minuend is strictly greater, before the
subtraction; with `x = 15` the difference is what `VF` ends as (R123). The order of the two writes is the spec's
decision D1. -/
def Obligations.SubtractSetsGreater : Prop :=
  ∀ (s : State) (x y : Nibble),
    (∃ t, exec (.subReg x y) s = .next t ∧
      (t.getV x).toNat = (256 + (s.getV x).toNat - (s.getV y).toNat) % 256 ∧
      (x ≠ 15 → t.getV 15 = if (s.getV x).toNat > (s.getV y).toNat then 1 else 0) ∧
      SameRegsBut [x, 15] s t ∧ Advanced s t ∧ OnlyRegsAndPc s t) ∧
    (∃ t, exec (.subnReg x y) s = .next t ∧
      (t.getV x).toNat = (256 + (s.getV y).toNat - (s.getV x).toNat) % 256 ∧
      (x ≠ 15 → t.getV 15 = if (s.getV y).toNat > (s.getV x).toNat then 1 else 0) ∧
      SameRegsBut [x, 15] s t ∧ Advanced s t ∧ OnlyRegsAndPc s t)

/-- R118, R120: `8xy6` and `8xyE` shift `V[x]` by one, whatever `y` is; the flag is the bit shifted out; with `x = 15`
the shifted value is what `VF` ends as (R123). The ignored `y` is the spec's decision D22, the order of the two writes
D1. -/
def Obligations.ShiftsMoveOneBit : Prop :=
  ∀ (s : State) (x y : Nibble),
    (∃ t, exec (.shr x y) s = .next t ∧ (t.getV x).toNat = (s.getV x).toNat / 2 ∧
      (x ≠ 15 → (t.getV 15).toNat = (s.getV x).toNat % 2) ∧
      SameRegsBut [x, 15] s t ∧ Advanced s t ∧ OnlyRegsAndPc s t ∧ ∀ z, exec (.shr x z) s = .next t) ∧
    (∃ t, exec (.shl x y) s = .next t ∧ (t.getV x).toNat = 2 * (s.getV x).toNat % 256 ∧
      (x ≠ 15 → (t.getV 15).toNat = (s.getV x).toNat / 128) ∧
      SameRegsBut [x, 15] s t ∧ Advanced s t ∧ OnlyRegsAndPc s t ∧ ∀ z, exec (.shl x z) s = .next t)

/-- R123: the table of flag-setters that name `VF`. `f` is `VF` at the start of the step, `b` is `V[y]`, `a` is
`V[x]`, for `x`, `y` other than 15. The table is the spec's decision D1. -/
def Obligations.FlagSettersNamingVF : Prop :=
  ∀ (s : State) (x y : Nibble) (f a b : Nat), x ≠ 15 → y ≠ 15 →
    (s.getV 15).toNat = f → (s.getV x).toNat = a → (s.getV y).toNat = b →
    (∃ t, exec (.addReg 15 y) s = .next t ∧ (t.getV 15).toNat = (f + b) % 256) ∧
    (∃ t, exec (.addReg x 15) s = .next t ∧ (t.getV x).toNat = (a + f) % 256 ∧
      (t.getV 15).toNat = if a + f > 255 then 1 else 0) ∧
    (∃ t, exec (.addReg 15 15) s = .next t ∧ (t.getV 15).toNat = 2 * f % 256) ∧
    (∃ t, exec (.subReg 15 y) s = .next t ∧ (t.getV 15).toNat = (256 + f - b) % 256) ∧
    (∃ t, exec (.subReg x 15) s = .next t ∧ (t.getV x).toNat = (256 + a - f) % 256 ∧
      (t.getV 15).toNat = if a > f then 1 else 0) ∧
    (∃ t, exec (.subReg 15 15) s = .next t ∧ (t.getV 15).toNat = 0) ∧
    (∀ z, ∃ t, exec (.shr 15 z) s = .next t ∧ (t.getV 15).toNat = f / 2) ∧
    (∃ t, exec (.shr x 15) s = .next t ∧ (t.getV x).toNat = a / 2 ∧ (t.getV 15).toNat = a % 2) ∧
    (∃ t, exec (.subnReg 15 y) s = .next t ∧ (t.getV 15).toNat = (256 + b - f) % 256) ∧
    (∃ t, exec (.subnReg x 15) s = .next t ∧ (t.getV x).toNat = (256 + f - a) % 256 ∧
      (t.getV 15).toNat = if f > a then 1 else 0) ∧
    (∃ t, exec (.subnReg 15 15) s = .next t ∧ (t.getV 15).toNat = 0) ∧
    (∀ z, ∃ t, exec (.shl 15 z) s = .next t ∧ (t.getV 15).toNat = 2 * f % 256) ∧
    (∃ t, exec (.shl x 15) s = .next t ∧ (t.getV x).toNat = 2 * a % 256 ∧ (t.getV 15).toNat = a / 128)

/-- R124: `Cxkk` writes some byte masked with `kk`, the byte being the free value (log entry 1): it is the same whatever
`x` and `kk` are, and nothing else is said of it. -/
def Obligations.RandomByteIsMasked : Prop :=
  ∀ s : State, ∃ r : Byte, ∀ (x : Nibble) (kk : Byte),
    ∃ t, exec (.rnd x kk) s = .next t ∧ (∀ k < 8, (t.getV x).getLsbD k = (r.getLsbD k && kk.getLsbD k)) ∧
      SameRegsBut [x] s t ∧ Advanced s t ∧ t.i = s.i ∧ SameMemory s t ∧ SameStack s t ∧ SameTimers s t ∧
      SameDisplay s t ∧ t.keys = s.keys

/-! ### Index register and memory (43_index_memory) -/

/-- R125, R126, R127: `Annn`, `Fx1E`, `Fx29`. The 16-bit sum is the spec's decision D4, the
unmasked glyph number D12. -/
def Obligations.IndexLoads : Prop :=
  ∀ (s : State) (nnn : Addr12) (x : Nibble),
    (∃ t, exec (.ldI nnn) s = .next t ∧ t.i.toNat = nnn.toNat ∧ Advanced s t ∧ OnlyIAndPc s t) ∧
    (∃ t, exec (.addI x) s = .next t ∧ t.i.toNat = (s.i.toNat + (s.getV x).toNat) % 65536 ∧
      Advanced s t ∧ OnlyIAndPc s t) ∧
    (∃ t, exec (.ldF x) s = .next t ∧ t.i.toNat = 0x050 + 5 * (s.getV x).toNat ∧ Advanced s t ∧ OnlyIAndPc s t)

/-- R128: `Fx33` stores hundreds, tens and ones at `I`, `I + 1`, `I + 2`, each address reduced on its own, and no other
byte. -/
def Obligations.BcdStoresThreeDigits : Prop :=
  ∀ (s : State) (x : Nibble),
    ∃ t, exec (.ldB x) s = .next t ∧
      (t.memRead (s.indexed 0)).toNat = (s.getV x).toNat / 100 ∧
      (t.memRead (s.indexed 1)).toNat = (s.getV x).toNat / 10 % 10 ∧
      (t.memRead (s.indexed 2)).toNat = (s.getV x).toNat % 10 ∧
      (∀ a, (∀ k < 3, a % 4096 ≠ s.indexed k % 4096) → t.memRead a = s.memRead a) ∧
      Advanced s t ∧ OnlyMemoryAndPc s t

/-- R130: `Fx55` stores registers 0 .. x at ascending addresses from `I`, and no other byte. That `I` stays is the
spec's decision D18. -/
def Obligations.BlockStoreWritesRegisters : Prop :=
  ∀ (s : State) (x : Nibble),
    ∃ t, exec (.stRegs x) s = .next t ∧
      (∀ r : Nibble, r.toNat ≤ x.toNat → t.memRead (s.indexed r.toNat) = s.getV r) ∧
      (∀ a, (∀ k ≤ x.toNat, a % 4096 ≠ s.indexed k % 4096) → t.memRead a = s.memRead a) ∧
      Advanced s t ∧ OnlyMemoryAndPc s t

/-- R131: `Fx65` loads registers 0 .. x from ascending addresses from `I`; the registers above x are unchanged. That
`I` stays is the spec's decision D18. -/
def Obligations.BlockLoadReadsMemory : Prop :=
  ∀ (s : State) (x : Nibble),
    ∃ t, exec (.ldRegs x) s = .next t ∧
      (∀ r : Nibble, r.toNat ≤ x.toNat → t.getV r = s.memRead (s.indexed r.toNat)) ∧
      (∀ r : Nibble, x.toNat < r.toNat → t.getV r = s.getV r) ∧ Advanced s t ∧ OnlyRegsAndPc s t

/-! ### Display (44_display) -/

/-- R135: `00E0`. -/
def Obligations.ClearTurnsEveryCellOff : Prop :=
  ∀ s : State,
    ∃ t, exec .cls s = .next t ∧ (∀ k, t.cell k = false) ∧ t.redraw = true ∧ SameRegs s t ∧ t.i = s.i ∧
      SameMemory s t ∧ SameStack s t ∧ SameTimers s t ∧ SameInputs s t ∧ Advanced s t

/-- R136, R137: `Dxyn` toggles exactly the cells its sprite covers, pixels wrapping one by one; `VF` is 1 if a covered
cell was on before, else 0; nothing but `FB`, `REDRAW`, `VF` and `PC` changes. The sprite is given without loops by
`State.spriteCovers`. The bit order is the spec's decision D13 (log entry 11), the latched coordinates D1, the redraw
flag D19, n = 0 D23. -/
def Obligations.DrawTogglesTheSpritesCells : Prop :=
  ∀ (s : State) (x y n : Nibble),
    ∃ t, exec (.drw x y n) s = .next t ∧
      (∀ k < 2048, t.cell k = (s.cell k != s.spriteCovers x y n k)) ∧
      ((∃ k < 2048, s.spriteCovers x y n k = true ∧ s.cell k = true) → t.getV 15 = 1) ∧
      ((∀ k < 2048, s.spriteCovers x y n k = true → s.cell k = false) → t.getV 15 = 0) ∧
      t.redraw = true ∧ SameRegsBut [15] s t ∧ t.i = s.i ∧ SameMemory s t ∧ SameStack s t ∧ SameTimers s t ∧
      SameInputs s t ∧ Advanced s t

/-- R138: after `Dxyn`, `VF` is 0 or 1, and 1 iff some cell went from on to off; a sprite with no set bit gives 0. -/
def Obligations.CollisionIsACellTurnedOff : Prop :=
  ∀ (s t : State) (x y n : Nibble), exec (.drw x y n) s = .next t →
    (t.getV 15 = 0 ∨ t.getV 15 = 1) ∧
    (t.getV 15 = 1 ↔ ∃ k < 2048, s.cell k = true ∧ t.cell k = false) ∧
    ((∀ row < n.toNat, s.memRead (s.indexed row) = 0) → t.getV 15 = 0)

/-- R140: drawing the same sprite twice at the same place leaves `FB` as it was before the first draw, and the second
draw reports a collision if the sprite covers a cell that was off before the first. `u` is any state between the two
that has the first draw's cells and the same coordinates, `I` and bytes. Marked derived by the spec. -/
def Obligations.DrawTwiceRestoresTheDisplay : Prop :=
  ∀ (s t u : State) (x y n : Nibble), exec (.drw x y n) s = .next t →
    u.fb = t.fb → u.getV x = s.getV x → u.getV y = s.getV y → u.i = s.i → SameMemory s u →
    ∃ w, exec (.drw x y n) u = .next w ∧ w.fb = s.fb ∧
      ((∃ k < 2048, s.spriteCovers x y n k = true ∧ s.cell k = false) → w.getV 15 = 1)

/-! ### Keypad and timers (45_keypad_timers, 70_reset R188) -/

/-- R145, R146, R151: the key skips test the key named by the low four bits of `V[x]`. The index is the spec's
decision D11. -/
def Obligations.KeySkipsTestTheLowNibble : Prop :=
  ∀ (s : State) (x k : Nibble), k.toNat = (s.getV x).toNat % 16 →
    (∃ t, exec (.skp x) s = .next t ∧
      t.pc.toNat = (s.pc.toNat + if s.key k = true then 4 else 2) % 65536 ∧ OnlyPc s t) ∧
    (∃ t, exec (.sknp x) s = .next t ∧
      t.pc.toNat = (s.pc.toNat + if s.key k = true then 2 else 4) % 65536 ∧ OnlyPc s t)

/-- R147: with no key pressed `Fx0A` changes nothing, `PC` included; else it takes the lowest pressed key. The
level-sensitive test is the spec's decision D9. -/
def Obligations.KeyWaitTakesTheLowestKey : Prop :=
  ∀ (s : State) (x : Nibble),
    ((∀ k, s.key k = false) → exec (.ldVxKey x) s = .next s) ∧
    (∀ k, s.key k = true → (∀ j : Nibble, j.toNat < k.toNat → s.key j = false) →
      ∃ t, exec (.ldVxKey x) s = .next t ∧ (t.getV x).toNat = k.toNat ∧
        SameRegsBut [x] s t ∧ Advanced s t ∧ OnlyRegsAndPc s t)

/-- R148, R149, R150: `Fx07`, `Fx15`, `Fx18`, before the tick. That `Fx07` reads before the tick is the spec's
decision D20. -/
def Obligations.TimerReadsAndWrites : Prop :=
  ∀ (s : State) (x : Nibble),
    (∃ t, exec (.ldVxDt x) s = .next t ∧ t.getV x = s.dt ∧
      SameRegsBut [x] s t ∧ Advanced s t ∧ OnlyRegsAndPc s t) ∧
    (∃ t, exec (.ldDtVx x) s = .next t ∧ t.dt = s.getV x ∧ t.st = s.st ∧ SameRegs s t ∧ t.i = s.i ∧
      SameMemory s t ∧ SameStack s t ∧ SameDisplay s t ∧ SameInputs s t ∧ Advanced s t) ∧
    (∃ t, exec (.ldStVx x) s = .next t ∧ t.st = s.getV x ∧ t.dt = s.dt ∧ SameRegs s t ∧ t.i = s.i ∧
      SameMemory s t ∧ SameStack s t ∧ SameDisplay s t ∧ SameInputs s t ∧ Advanced s t)

/-- R188: a timer is written and ticked in one step, and `Fx07` reads `DT` before the tick of its own step. Marked
derived by the spec, with its decision D20. -/
def Obligations.TimerWrittenAndTickedInOneStep : Prop :=
  ∀ (s : State) (x : Nibble),
    (decode s.fetch = some (.ldDtVx x) → ∃ t, step s = .next t ∧ t.dt.toNat = (s.getV x).toNat - 1) ∧
    (decode s.fetch = some (.ldStVx x) → ∃ t, step s = .next t ∧ t.st.toNat = (s.getV x).toNat - 1) ∧
    (decode s.fetch = some (.ldVxDt x) → ∃ t, step s = .next t ∧ t.getV x = s.dt ∧ t.dt.toNat = s.dt.toNat - 1)

/-! ### The host's operations (70_reset, 10_state R35, R36) -/

/-- R35: the state at construction, for every `FONT`. The spec's decision D17 (`PC`). -/
def Obligations.ConstructionState : Prop :=
  ∀ font : Vector Byte 80, ∃ c, State.construct font = c ∧
    (∀ k : Fin 80, c.memRead (0x050 + k.val) = font[k]) ∧
    (∀ a < 4096, (a < 0x050 ∨ 0x0A0 ≤ a) → c.memRead a = 0) ∧
    (∀ r, c.getV r = 0) ∧ c.i = 0 ∧ c.pc.toNat = 0x200 ∧ c.sp = 0 ∧ (∀ k : Fin 16, c.stack[k] = 0) ∧ c.dt = 0 ∧
    c.st = 0 ∧ (∀ k, c.key k = false) ∧ (∀ k, c.cell k = false) ∧ c.redraw = false

/-- 10_state R31, R35: `State.reset` is the construction with the default font (log entries 3 and 5). The font's bytes
are the spec's decision D14. -/
def Obligations.ResetIsConstructionWithTheDefaultFont : Prop :=
  ∀ font : Vector Byte 80, font.toList = fontBytes → State.construct font = State.reset

/-- R36, R176: the state after the host's `reset`, from every state. The spec's decision D16. -/
def Obligations.HostResetState : Prop :=
  ∀ s : State, ∃ c, s.hostReset = c ∧
    (∀ a < 4096, c.memRead a = if a < 0x200 then s.memRead a else 0) ∧
    (∀ r, c.getV r = 0) ∧ c.i = 0 ∧ c.pc.toNat = 0x200 ∧ c.sp = 0 ∧ (∀ k : Fin 16, c.stack[k] = 0) ∧ c.dt = 0 ∧
    c.st = 0 ∧ (∀ k, c.key k = false) ∧ (∀ k, c.cell k = false) ∧ c.redraw = false

/-- R177, R159, R162: `load` copies its bytes to 0x200 up and changes nothing else, `PC` included; an empty or oversized
input fails and changes nothing. The host sees the result, numbered 0 for success and 1 for `LoadError`, and the state
after. The spec's decisions D27 and D8 (the numbers). -/
def Obligations.LoadCopiesTheProgram : Prop :=
  ∀ (s : State) (bytes : List Byte),
    (bytes.length = 0 ∨ 3584 < bytes.length → s.load bytes = .error .loadError ∧
      ∃ r, s.hostLoad bytes = (r, s) ∧ r = .loadError ∧ r.code = 1) ∧
    (0 < bytes.length → bytes.length ≤ 3584 → ∃ t, s.load bytes = .ok t ∧
      (∃ r, s.hostLoad bytes = (r, t) ∧ r = .success ∧ r.code = 0) ∧
      (∀ k (h : k < bytes.length), t.memRead (0x200 + k) = bytes[k]) ∧
      (∀ a < 4096, (a < 0x200 ∨ 0x200 + bytes.length ≤ a) → t.memRead a = s.memRead a) ∧
      t.pc = s.pc ∧ SameRegs s t ∧ t.i = s.i ∧ SameStack s t ∧ SameTimers s t ∧ SameDisplay s t ∧ SameInputs s t)

/-- R184: with no program loaded, the first step raises `DecodeError` of the word 0x0000, after construction with any
font and after `reset` from any state. Marked derived by the spec. -/
def Obligations.StepWithoutAProgramIsFatal : Prop :=
  (∀ font, step (State.construct font) = .fault (.decodeError 0)) ∧
  (∀ s : State, step s.hostReset = .fault (.decodeError 0))

/-- R178, R179: the host's key write changes one key, and frame consume clears `REDRAW` alone and reads `FB` and `REDRAW`. -/
def Obligations.KeyWriteAndFrameConsume : Prop :=
  ∀ (s : State) (k : Nibble) (p : Bool),
    ((s.keyWrite k p).key k = p ∧ (∀ j, j ≠ k → (s.keyWrite k p).key j = s.key j) ∧
      s.keyWrite k p = { s with keys := (s.keyWrite k p).keys }) ∧
    (s.consumeFrame.1 = (s.fb, s.redraw) ∧ s.consumeFrame.2.redraw = false ∧
      s.consumeFrame.2 = { s with redraw := s.consumeFrame.2.redraw })

/-- R187: from a self-jump, every later state differs from the first in the timers alone, which run down to 0 and
stay. The spec's decision D31. -/
def Obligations.SelfJumpOnlyRunsTheTimersDown : Prop :=
  ∀ (s : State) (k : Nat), s.SelfJump →
    ∃ t, core.run k s = .next t ∧ t = { s with dt := t.dt, st := t.st } ∧
      t.dt.toNat = s.dt.toNat - k ∧ t.st.toNat = s.st.toNat - k
end

