-- ==== Sys2Proof/Laws/State.lean ====
section
/-! SUPPORT. Beside the state: each update's effect on each field, true by rfl, so that no proof unfolds a record update. -/

namespace Sys2Proof.Machine

variable (s : State)

/-! ### `State.setV` -/

@[simp] theorem State.setV_i (x : Nibble) (b : Byte) : (s.setV x b).i = s.i := rfl
@[simp] theorem State.setV_pc (x : Nibble) (b : Byte) : (s.setV x b).pc = s.pc := rfl
@[simp] theorem State.setV_stack (x : Nibble) (b : Byte) : (s.setV x b).stack = s.stack := rfl
@[simp] theorem State.setV_sp (x : Nibble) (b : Byte) : (s.setV x b).sp = s.sp := rfl
@[simp] theorem State.setV_dt (x : Nibble) (b : Byte) : (s.setV x b).dt = s.dt := rfl
@[simp] theorem State.setV_st (x : Nibble) (b : Byte) : (s.setV x b).st = s.st := rfl
@[simp] theorem State.setV_keys (x : Nibble) (b : Byte) : (s.setV x b).keys = s.keys := rfl
@[simp] theorem State.setV_fb (x : Nibble) (b : Byte) : (s.setV x b).fb = s.fb := rfl
@[simp] theorem State.setV_redraw (x : Nibble) (b : Byte) : (s.setV x b).redraw = s.redraw := rfl
@[simp] theorem State.setV_mem (x : Nibble) (b : Byte) : (s.setV x b).mem = s.mem := rfl
@[simp] theorem State.setV_draws (x : Nibble) (b : Byte) : (s.setV x b).draws = s.draws := rfl

/-! ### `State.setVF` -/

@[simp] theorem State.setVF_i (b : Byte) : (s.setVF b).i = s.i := rfl
@[simp] theorem State.setVF_pc (b : Byte) : (s.setVF b).pc = s.pc := rfl
@[simp] theorem State.setVF_stack (b : Byte) : (s.setVF b).stack = s.stack := rfl
@[simp] theorem State.setVF_sp (b : Byte) : (s.setVF b).sp = s.sp := rfl
@[simp] theorem State.setVF_dt (b : Byte) : (s.setVF b).dt = s.dt := rfl
@[simp] theorem State.setVF_st (b : Byte) : (s.setVF b).st = s.st := rfl
@[simp] theorem State.setVF_keys (b : Byte) : (s.setVF b).keys = s.keys := rfl
@[simp] theorem State.setVF_fb (b : Byte) : (s.setVF b).fb = s.fb := rfl
@[simp] theorem State.setVF_redraw (b : Byte) : (s.setVF b).redraw = s.redraw := rfl
@[simp] theorem State.setVF_mem (b : Byte) : (s.setVF b).mem = s.mem := rfl
@[simp] theorem State.setVF_draws (b : Byte) : (s.setVF b).draws = s.draws := rfl

/-! ### `State.setFlagThenResult` -/

@[simp] theorem State.setFlagThenResult_i (x : Nibble) (f b : Byte) : (s.setFlagThenResult x f b).i = s.i := rfl
@[simp] theorem State.setFlagThenResult_pc (x : Nibble) (f b : Byte) : (s.setFlagThenResult x f b).pc = s.pc := rfl
@[simp] theorem State.setFlagThenResult_stack (x : Nibble) (f b : Byte) : (s.setFlagThenResult x f b).stack = s.stack := rfl
@[simp] theorem State.setFlagThenResult_sp (x : Nibble) (f b : Byte) : (s.setFlagThenResult x f b).sp = s.sp := rfl
@[simp] theorem State.setFlagThenResult_dt (x : Nibble) (f b : Byte) : (s.setFlagThenResult x f b).dt = s.dt := rfl
@[simp] theorem State.setFlagThenResult_st (x : Nibble) (f b : Byte) : (s.setFlagThenResult x f b).st = s.st := rfl
@[simp] theorem State.setFlagThenResult_keys (x : Nibble) (f b : Byte) : (s.setFlagThenResult x f b).keys = s.keys := rfl
@[simp] theorem State.setFlagThenResult_fb (x : Nibble) (f b : Byte) : (s.setFlagThenResult x f b).fb = s.fb := rfl
@[simp] theorem State.setFlagThenResult_redraw (x : Nibble) (f b : Byte) : (s.setFlagThenResult x f b).redraw = s.redraw := rfl
@[simp] theorem State.setFlagThenResult_mem (x : Nibble) (f b : Byte) : (s.setFlagThenResult x f b).mem = s.mem := rfl
@[simp] theorem State.setFlagThenResult_draws (x : Nibble) (f b : Byte) : (s.setFlagThenResult x f b).draws = s.draws := rfl

/-! ### `State.setI` -/

@[simp] theorem State.setI_v (w : Word) : (s.setI w).v = s.v := rfl
@[simp] theorem State.setI_i (w : Word) : (s.setI w).i = w := rfl
@[simp] theorem State.setI_pc (w : Word) : (s.setI w).pc = s.pc := rfl
@[simp] theorem State.setI_stack (w : Word) : (s.setI w).stack = s.stack := rfl
@[simp] theorem State.setI_sp (w : Word) : (s.setI w).sp = s.sp := rfl
@[simp] theorem State.setI_dt (w : Word) : (s.setI w).dt = s.dt := rfl
@[simp] theorem State.setI_st (w : Word) : (s.setI w).st = s.st := rfl
@[simp] theorem State.setI_keys (w : Word) : (s.setI w).keys = s.keys := rfl
@[simp] theorem State.setI_fb (w : Word) : (s.setI w).fb = s.fb := rfl
@[simp] theorem State.setI_redraw (w : Word) : (s.setI w).redraw = s.redraw := rfl
@[simp] theorem State.setI_mem (w : Word) : (s.setI w).mem = s.mem := rfl
@[simp] theorem State.setI_draws (w : Word) : (s.setI w).draws = s.draws := rfl

/-! ### `State.memWrite` -/

@[simp] theorem State.memWrite_v (a : Nat) (b : Byte) : (s.memWrite a b).v = s.v := rfl
@[simp] theorem State.memWrite_i (a : Nat) (b : Byte) : (s.memWrite a b).i = s.i := rfl
@[simp] theorem State.memWrite_pc (a : Nat) (b : Byte) : (s.memWrite a b).pc = s.pc := rfl
@[simp] theorem State.memWrite_stack (a : Nat) (b : Byte) : (s.memWrite a b).stack = s.stack := rfl
@[simp] theorem State.memWrite_sp (a : Nat) (b : Byte) : (s.memWrite a b).sp = s.sp := rfl
@[simp] theorem State.memWrite_dt (a : Nat) (b : Byte) : (s.memWrite a b).dt = s.dt := rfl
@[simp] theorem State.memWrite_st (a : Nat) (b : Byte) : (s.memWrite a b).st = s.st := rfl
@[simp] theorem State.memWrite_keys (a : Nat) (b : Byte) : (s.memWrite a b).keys = s.keys := rfl
@[simp] theorem State.memWrite_fb (a : Nat) (b : Byte) : (s.memWrite a b).fb = s.fb := rfl
@[simp] theorem State.memWrite_redraw (a : Nat) (b : Byte) : (s.memWrite a b).redraw = s.redraw := rfl
@[simp] theorem State.memWrite_draws (a : Nat) (b : Byte) : (s.memWrite a b).draws = s.draws := rfl

/-! ### `State.advance` -/

@[simp] theorem State.advance_v : (s.advance).v = s.v := rfl
@[simp] theorem State.advance_i : (s.advance).i = s.i := rfl
@[simp] theorem State.advance_pc : (s.advance).pc = s.pc + 2 := rfl
@[simp] theorem State.advance_stack : (s.advance).stack = s.stack := rfl
@[simp] theorem State.advance_sp : (s.advance).sp = s.sp := rfl
@[simp] theorem State.advance_dt : (s.advance).dt = s.dt := rfl
@[simp] theorem State.advance_st : (s.advance).st = s.st := rfl
@[simp] theorem State.advance_keys : (s.advance).keys = s.keys := rfl
@[simp] theorem State.advance_fb : (s.advance).fb = s.fb := rfl
@[simp] theorem State.advance_redraw : (s.advance).redraw = s.redraw := rfl
@[simp] theorem State.advance_mem : (s.advance).mem = s.mem := rfl
@[simp] theorem State.advance_draws : (s.advance).draws = s.draws := rfl

/-! ### `State.jump` -/

@[simp] theorem State.jump_v (w : Word) : (s.jump w).v = s.v := rfl
@[simp] theorem State.jump_i (w : Word) : (s.jump w).i = s.i := rfl
@[simp] theorem State.jump_pc (w : Word) : (s.jump w).pc = w := rfl
@[simp] theorem State.jump_stack (w : Word) : (s.jump w).stack = s.stack := rfl
@[simp] theorem State.jump_sp (w : Word) : (s.jump w).sp = s.sp := rfl
@[simp] theorem State.jump_dt (w : Word) : (s.jump w).dt = s.dt := rfl
@[simp] theorem State.jump_st (w : Word) : (s.jump w).st = s.st := rfl
@[simp] theorem State.jump_keys (w : Word) : (s.jump w).keys = s.keys := rfl
@[simp] theorem State.jump_fb (w : Word) : (s.jump w).fb = s.fb := rfl
@[simp] theorem State.jump_redraw (w : Word) : (s.jump w).redraw = s.redraw := rfl
@[simp] theorem State.jump_mem (w : Word) : (s.jump w).mem = s.mem := rfl
@[simp] theorem State.jump_draws (w : Word) : (s.jump w).draws = s.draws := rfl

/-! ### `State.skipIf` -/

@[simp] theorem State.skipIf_v (c : Bool) : (s.skipIf c).v = s.v := rfl
@[simp] theorem State.skipIf_i (c : Bool) : (s.skipIf c).i = s.i := rfl
@[simp] theorem State.skipIf_pc (c : Bool) : (s.skipIf c).pc = s.pc + (if c then 4 else 2) := rfl
@[simp] theorem State.skipIf_stack (c : Bool) : (s.skipIf c).stack = s.stack := rfl
@[simp] theorem State.skipIf_sp (c : Bool) : (s.skipIf c).sp = s.sp := rfl
@[simp] theorem State.skipIf_dt (c : Bool) : (s.skipIf c).dt = s.dt := rfl
@[simp] theorem State.skipIf_st (c : Bool) : (s.skipIf c).st = s.st := rfl
@[simp] theorem State.skipIf_keys (c : Bool) : (s.skipIf c).keys = s.keys := rfl
@[simp] theorem State.skipIf_fb (c : Bool) : (s.skipIf c).fb = s.fb := rfl
@[simp] theorem State.skipIf_redraw (c : Bool) : (s.skipIf c).redraw = s.redraw := rfl
@[simp] theorem State.skipIf_mem (c : Bool) : (s.skipIf c).mem = s.mem := rfl
@[simp] theorem State.skipIf_draws (c : Bool) : (s.skipIf c).draws = s.draws := rfl

/-! ### `State.tick` -/

@[simp] theorem State.tick_v : (s.tick).v = s.v := rfl
@[simp] theorem State.tick_i : (s.tick).i = s.i := rfl
@[simp] theorem State.tick_pc : (s.tick).pc = s.pc := rfl
@[simp] theorem State.tick_stack : (s.tick).stack = s.stack := rfl
@[simp] theorem State.tick_sp : (s.tick).sp = s.sp := rfl
@[simp] theorem State.tick_dt : (s.tick).dt = tickTimer s.dt := rfl
@[simp] theorem State.tick_st : (s.tick).st = tickTimer s.st := rfl
@[simp] theorem State.tick_keys : (s.tick).keys = s.keys := rfl
@[simp] theorem State.tick_fb : (s.tick).fb = s.fb := rfl
@[simp] theorem State.tick_redraw : (s.tick).redraw = s.redraw := rfl
@[simp] theorem State.tick_mem : (s.tick).mem = s.mem := rfl
@[simp] theorem State.tick_draws : (s.tick).draws = s.draws := rfl

/-! ### `State.keyWrite` -/

@[simp] theorem State.keyWrite_v (k : Nibble) (p : Bool) : (s.keyWrite k p).v = s.v := rfl
@[simp] theorem State.keyWrite_i (k : Nibble) (p : Bool) : (s.keyWrite k p).i = s.i := rfl
@[simp] theorem State.keyWrite_pc (k : Nibble) (p : Bool) : (s.keyWrite k p).pc = s.pc := rfl
@[simp] theorem State.keyWrite_stack (k : Nibble) (p : Bool) : (s.keyWrite k p).stack = s.stack := rfl
@[simp] theorem State.keyWrite_sp (k : Nibble) (p : Bool) : (s.keyWrite k p).sp = s.sp := rfl
@[simp] theorem State.keyWrite_dt (k : Nibble) (p : Bool) : (s.keyWrite k p).dt = s.dt := rfl
@[simp] theorem State.keyWrite_st (k : Nibble) (p : Bool) : (s.keyWrite k p).st = s.st := rfl
@[simp] theorem State.keyWrite_fb (k : Nibble) (p : Bool) : (s.keyWrite k p).fb = s.fb := rfl
@[simp] theorem State.keyWrite_redraw (k : Nibble) (p : Bool) : (s.keyWrite k p).redraw = s.redraw := rfl
@[simp] theorem State.keyWrite_mem (k : Nibble) (p : Bool) : (s.keyWrite k p).mem = s.mem := rfl
@[simp] theorem State.keyWrite_draws (k : Nibble) (p : Bool) : (s.keyWrite k p).draws = s.draws := rfl

/-! ### `State.reset` (10_state R35) -/

@[simp] theorem State.reset_v : State.reset.v = Vector.replicate 16 0 := rfl
@[simp] theorem State.reset_i : State.reset.i = 0 := rfl
@[simp] theorem State.reset_pc : State.reset.pc = 0x0200 := rfl
@[simp] theorem State.reset_stack : State.reset.stack = Vector.replicate 16 0 := rfl
@[simp] theorem State.reset_sp : State.reset.sp = 0 := rfl
@[simp] theorem State.reset_dt : State.reset.dt = 0 := rfl
@[simp] theorem State.reset_st : State.reset.st = 0 := rfl
@[simp] theorem State.reset_keys : State.reset.keys = Vector.replicate 16 false := rfl
@[simp] theorem State.reset_fb : State.reset.fb = 0 := rfl
@[simp] theorem State.reset_redraw : State.reset.redraw = false := rfl
@[simp] theorem State.reset_mem : State.reset.mem = [] := rfl
@[simp] theorem State.reset_draws : State.reset.draws = 0 := rfl

/-! ### Reads that depend on one field -/

theorem State.getV_of_v {s t : State} (h : t.v = s.v) (r : Nibble) : t.getV r = s.getV r := by simp [State.getV, h]

theorem State.memRead_of_mem {s t : State} (h : t.mem = s.mem) (a : Nat) : t.memRead a = s.memRead a := by simp [State.memRead, h]

end Sys2Proof.Machine
end

