-- ==== Sys2Proof/Laws/Memory.lean ====
section
/-! SUPPORT. The laws of memory as a canonical list: read after write, and that every memory operation keeps the canonical
form. The read laws need no hypothesis on the list. -/

namespace Sys2Proof.Machine

/-! ### Read after put, drop, write -/

theorem Memory.read_put (m : Memory) (a c : Nat) (v : Byte) :
    Memory.read (Memory.put m a v) c = if c = a then v else Memory.read m c := by
  induction m with
  | nil =>
    by_cases h : c = a
    · simp [Memory.put, Memory.read, h]
    · simp [Memory.put, Memory.read, h, Ne.symm h]
  | cons hd tl ih =>
    obtain ⟨b, w⟩ := hd
    by_cases h₁ : a < b
    · by_cases hc : c = a
      · simp [Memory.put, Memory.read, h₁, hc]
      · simp [Memory.put, Memory.read, h₁, hc, Ne.symm hc]
    · by_cases h₂ : a = b
      · by_cases hc : c = a
        · simp [Memory.put, Memory.read, h₂, hc]
        · simp [Memory.put, Memory.read, ← h₂, hc, Ne.symm hc]
      · by_cases hc : b = c
        · subst hc; simp [Memory.put, Memory.read, h₁, h₂, Ne.symm h₂]
        · simp [Memory.put, Memory.read, h₁, h₂, hc, ih]

theorem Memory.read_drop (m : Memory) (a c : Nat) :
    Memory.read (Memory.drop m a) c = if c = a then Memory.initial a else Memory.read m c := by
  induction m with
  | nil => by_cases h : c = a <;> simp [Memory.drop, Memory.read, h]
  | cons hd tl ih =>
    obtain ⟨b, w⟩ := hd
    simp only [Memory.drop] at ih ⊢
    by_cases hb : b = a
    · subst hb
      by_cases hc : c = b
      · simpa [hc, List.filter_cons] using ih
      · simpa [hc, Ne.symm hc, List.filter_cons, Memory.read] using ih
    · by_cases hc : c = a
      · subst hc; simpa [hb, List.filter_cons, Memory.read] using ih
      · simp [hb, Memory.read, ih, hc]

/-- The one law of `Memory.write`: it changes what its address reads as, and nothing else. -/
theorem Memory.read_write (m : Memory) (a c : Nat) (v : Byte) :
    Memory.read (Memory.write m a v) c = if c = a then v else Memory.read m c := by
  by_cases h : v = Memory.initial a
  · simp [Memory.write, h, Memory.read_drop]
  · simp [Memory.write, h, Memory.read_put]

/-! ### The canonical form -/

theorem Memory.mem_put {m : Memory} {a : Nat} {v : Byte} {c : Host.Cell} (h : c ∈ Memory.put m a v) :
    c = (a, v) ∨ c ∈ m := by
  induction m with
  | nil => simpa [Memory.put] using h
  | cons hd tl ih =>
    obtain ⟨b, w⟩ := hd
    simp only [Memory.put] at h
    split_ifs at h
    · simpa using h
    · rcases List.mem_cons.1 h with h | h
      · exact .inl h
      · exact .inr (List.mem_cons_of_mem _ h)
    · rcases List.mem_cons.1 h with h | h
      · exact .inr (h ▸ List.mem_cons_self)
      · exact (ih h).imp id (List.mem_cons_of_mem _)

theorem Memory.pairwise_put {m : Memory} (a : Nat) (v : Byte) (h : m.Pairwise (fun c d => c.1 < d.1)) :
    (Memory.put m a v).Pairwise (fun c d => c.1 < d.1) := by
  induction m with
  | nil => simp [Memory.put]
  | cons hd tl ih =>
    obtain ⟨b, w⟩ := hd
    have ⟨hb, ht⟩ := List.pairwise_cons.1 h
    simp only [Memory.put]
    split_ifs with h₁ h₂
    · refine List.pairwise_cons.2 ⟨fun c hc => ?_, h⟩
      rcases List.mem_cons.1 hc with hc | hc
      · simpa [hc] using h₁
      · exact h₁.trans (hb c hc)
    · exact List.pairwise_cons.2 ⟨fun c hc => h₂ ▸ hb c hc, ht⟩
    · refine List.pairwise_cons.2 ⟨fun c hc => ?_, ih ht⟩
      rcases Memory.mem_put hc with hc | hc
      · simp only [hc]; omega
      · exact hb c hc

theorem Memory.wf_filter {m : Memory} (p : Host.Cell → Bool) (h : m.wf) : Memory.wf (m.filter p) :=
  ⟨h.1.filter p, fun c hc => h.2 c (List.mem_of_mem_filter hc)⟩

theorem Memory.wf_put {m : Memory} {a : Nat} {v : Byte} (h : m.wf) (ha : a < Config.memSize)
    (hv : v ≠ Memory.initial a) : (Memory.put m a v).wf := by
  refine ⟨Memory.pairwise_put a v h.1, fun c hc => ?_⟩
  rcases Memory.mem_put hc with rfl | hc
  · exact ⟨ha, hv⟩
  · exact h.2 c hc

/-- Every write keeps the canonical form. -/
theorem Memory.wf_write {m : Memory} {a : Nat} (v : Byte) (h : m.wf) (ha : a < Config.memSize) :
    (Memory.write m a v).wf := by
  unfold Memory.write
  split_ifs with hv
  · exact Memory.wf_filter _ h
  · exact Memory.wf_put h ha hv

theorem Memory.wf_clearProgram {m : Memory} (h : m.wf) : (Memory.clearProgram m).wf := Memory.wf_filter _ h

theorem Memory.wf_nil : Memory.wf [] := ⟨List.Pairwise.nil, fun _ h => nomatch h⟩

/-! ### What unlisted addresses read as -/

@[simp] theorem Memory.read_nil (a : Nat) : Memory.read [] a = Memory.initial a := rfl

theorem Memory.initial_font {k : Nat} (h : k < 80) : Memory.initial (0x050 + k) = fontBytes.getD k 0 := by
  have h₁ : 80 + k < 80 + 80 := by omega
  simp [Memory.initial, h₁]

theorem Memory.initial_zero {a : Nat} (h : a < 0x050 ∨ 0x0A0 ≤ a) : Memory.initial a = 0 := by
  have : ¬(80 ≤ a ∧ a < 80 + 80) := by omega
  simp [Memory.initial, this]

/-- After the program region is cleared, it reads as 0 and the rest reads as before. -/
theorem Memory.read_clearProgram (m : Memory) (a : Nat) :
    Memory.read (Memory.clearProgram m) a = if a < 0x200 then Memory.read m a else 0 := by
  induction m with
  | nil =>
    by_cases h : a < 0x200
    · simp [Memory.clearProgram, h]
    · simpa [Memory.clearProgram, h] using Memory.initial_zero (.inr (by omega))
  | cons hd tl ih =>
    obtain ⟨b, w⟩ := hd
    simp only [Memory.clearProgram] at ih ⊢
    by_cases hb : b < 0x200
    · by_cases hba : b = a
      · subst hba; simp [hb, Memory.read]
      · simp [hb, Memory.read, hba, ih]
    · by_cases hba : b = a
      · subst hba; simpa [List.filter_cons, hb] using ih
      · simp [hb, Memory.read, hba, ih]

end Sys2Proof.Machine
end

