-- ==== Sys2Proof/Laws/Ops.lean ====
section
/-! SUPPORT. One law per shared operation of Machine/Ops.lean: everything it can do, cited instead of unfolding it. -/

namespace Sys2Proof.Machine

variable (s : State)

/-! ### Registers -/

@[simp] theorem State.getV_setV (x r : Nibble) (b : Byte) : (s.setV x b).getV r = if r = x then b else s.getV r := by
  simp only [State.getV, State.setV, Vector.getElem_set, BitVec.toNat_inj, eq_comm]

@[simp] theorem State.getV_setVF (r : Nibble) (b : Byte) : (s.setVF b).getV r = if r = 15 then b else s.getV r := by
  simp [State.setVF]

@[simp] theorem State.getV_setFlagThenResult (x r : Nibble) (f b : Byte) :
    (s.setFlagThenResult x f b).getV r = if r = x then b else if r = 15 then f else s.getV r := by
  simp [State.setFlagThenResult]

@[simp] theorem State.getV_advance (r : Nibble) : s.advance.getV r = s.getV r := rfl
@[simp] theorem State.getV_jump (w : Word) (r : Nibble) : (s.jump w).getV r = s.getV r := rfl
@[simp] theorem State.getV_skipIf (c : Bool) (r : Nibble) : (s.skipIf c).getV r = s.getV r := rfl
@[simp] theorem State.getV_setI (w : Word) (r : Nibble) : (s.setI w).getV r = s.getV r := rfl
@[simp] theorem State.getV_tick (r : Nibble) : s.tick.getV r = s.getV r := rfl
@[simp] theorem State.getV_memWrite (a : Nat) (b : Byte) (r : Nibble) : (s.memWrite a b).getV r = s.getV r := rfl

/-- Two states with the same reading of every register have the same register file. -/
theorem State.v_ext {s t : State} (h : ∀ r, t.getV r = s.getV r) : t.v = s.v := by
  refine Vector.ext fun k hk => ?_
  have h' := h (BitVec.ofNat 4 k)
  simpa only [State.getV, BitVec.toNat_ofNat, Nat.mod_eq_of_lt (show k < 2 ^ 4 from hk)] using h'

/-! ### Memory -/

@[simp] theorem State.memRead_memWrite (a c : Nat) (b : Byte) :
    (s.memWrite a b).memRead c = if c % 4096 = a % 4096 then b else s.memRead c := by
  simp [State.memRead, State.memWrite, Memory.read_write]

@[simp] theorem State.memRead_advance (a : Nat) : s.advance.memRead a = s.memRead a := rfl
@[simp] theorem State.memRead_jump (w : Word) (a : Nat) : (s.jump w).memRead a = s.memRead a := rfl
@[simp] theorem State.memRead_skipIf (c : Bool) (a : Nat) : (s.skipIf c).memRead a = s.memRead a := rfl
@[simp] theorem State.memRead_setI (w : Word) (a : Nat) : (s.setI w).memRead a = s.memRead a := rfl
@[simp] theorem State.memRead_tick (a : Nat) : s.tick.memRead a = s.memRead a := rfl
@[simp] theorem State.memRead_setV (x : Nibble) (b : Byte) (a : Nat) : (s.setV x b).memRead a = s.memRead a := rfl
@[simp] theorem State.memRead_setVF (b : Byte) (a : Nat) : (s.setVF b).memRead a = s.memRead a := rfl
@[simp] theorem State.memRead_setFlagThenResult (x : Nibble) (f b : Byte) (a : Nat) :
    (s.setFlagThenResult x f b).memRead a = s.memRead a := rfl

/-- Only an address's low 12 bits matter to a read (R50). -/
theorem State.memRead_congr {a c : Nat} (h : a % 4096 = c % 4096) : s.memRead a = s.memRead c := by
  simp [State.memRead, h]

theorem State.memWrite_congr {a c : Nat} (b : Byte) (h : a % 4096 = c % 4096) : s.memWrite a b = s.memWrite c b := by
  simp [State.memWrite, h]

theorem State.memWrite_wf {s : State} (a : Nat) (b : Byte) (h : s.mem.wf) : (s.memWrite a b).mem.wf :=
  Memory.wf_write b h (Nat.mod_lt _ (by decide))

/-! ### Blocks of bytes -/

/-- Storing bytes changes memory alone. -/
theorem State.storeBytes_eq (a : Nat) (bytes : List Byte) :
    s.storeBytes a bytes = { s with mem := (s.storeBytes a bytes).mem } := by
  induction bytes generalizing s a with
  | nil => rfl
  | cons b rest ih => rw [State.storeBytes, ih]; rfl

section
variable (a : Nat) (bytes : List Byte)
@[simp] theorem State.storeBytes_v : (s.storeBytes a bytes).v = s.v := by rw [State.storeBytes_eq]
@[simp] theorem State.storeBytes_i : (s.storeBytes a bytes).i = s.i := by rw [State.storeBytes_eq]
@[simp] theorem State.storeBytes_pc : (s.storeBytes a bytes).pc = s.pc := by rw [State.storeBytes_eq]
@[simp] theorem State.storeBytes_stack : (s.storeBytes a bytes).stack = s.stack := by rw [State.storeBytes_eq]
@[simp] theorem State.storeBytes_sp : (s.storeBytes a bytes).sp = s.sp := by rw [State.storeBytes_eq]
@[simp] theorem State.storeBytes_dt : (s.storeBytes a bytes).dt = s.dt := by rw [State.storeBytes_eq]
@[simp] theorem State.storeBytes_st : (s.storeBytes a bytes).st = s.st := by rw [State.storeBytes_eq]
@[simp] theorem State.storeBytes_keys : (s.storeBytes a bytes).keys = s.keys := by rw [State.storeBytes_eq]
@[simp] theorem State.storeBytes_fb : (s.storeBytes a bytes).fb = s.fb := by rw [State.storeBytes_eq]
@[simp] theorem State.storeBytes_redraw : (s.storeBytes a bytes).redraw = s.redraw := by rw [State.storeBytes_eq]
@[simp] theorem State.storeBytes_draws : (s.storeBytes a bytes).draws = s.draws := by rw [State.storeBytes_eq]
@[simp] theorem State.getV_storeBytes (r : Nibble) : (s.storeBytes a bytes).getV r = s.getV r :=
  State.getV_of_v (by simp) r
end

/-- An address outside the stored bytes reads as before. -/
theorem State.memRead_storeBytes_outside (a c : Nat) (bytes : List Byte)
    (h : ∀ k < bytes.length, c % 4096 ≠ (a + k) % 4096) : (s.storeBytes a bytes).memRead c = s.memRead c := by
  induction bytes generalizing s a with
  | nil => rfl
  | cons b rest ih =>
    rw [State.storeBytes, ih]
    · have h0 := h 0 (by simp)
      simp [show c % 4096 ≠ a % 4096 by simpa using h0]
    · intro k hk
      have := h (k + 1) (by simpa using hk)
      rwa [show a + 1 + k = a + (k + 1) by omega]

/-- The `k`-th stored byte reads back, for a block no longer than memory. -/
theorem State.memRead_storeBytes_inside (a k : Nat) (bytes : List Byte) (hk : k < bytes.length)
    (hl : bytes.length ≤ 4096) : (s.storeBytes a bytes).memRead (a + k) = bytes[k] := by
  induction bytes generalizing s a k with
  | nil => simp at hk
  | cons b rest ih =>
    have hr : rest.length < 4096 := by simpa using hl
    rw [State.storeBytes]
    cases k with
    | zero =>
      rw [State.memRead_storeBytes_outside]
      · simp
      · intro j hj; omega
    | succ k =>
      have := ih (s.memWrite a b) (a + 1) k (by simpa using hk) (by omega)
      rw [show a + 1 + k = a + (k + 1) by omega] at this
      simpa using this

theorem State.storeBytes_wf {s : State} (a : Nat) (bytes : List Byte) (h : s.mem.wf) :
    (s.storeBytes a bytes).mem.wf := by
  induction bytes generalizing s a with
  | nil => exact h
  | cons b rest ih => exact ih (a + 1) (State.memWrite_wf a b h)

/-- What the fold of `loadBlock` has done after `n` registers. -/
theorem State.loadFold (f : Nat → Byte) (n : Nat) (hn : n ≤ 16) :
    let t := (List.range n).foldl (fun t k => t.setV (BitVec.ofNat 4 k) (f k)) s
    t = { s with v := t.v } ∧ ∀ r : Nibble, t.getV r = if r.toNat < n then f r.toNat else s.getV r := by
  induction n with
  | zero => simp
  | succ n ih =>
    obtain ⟨h₁, h₂⟩ := ih (by omega)
    refine ⟨?_, fun r => ?_⟩
    · simp only [List.range_succ, List.foldl_append, List.foldl_cons, List.foldl_nil]
      rw [h₁]; rfl
    · simp only [List.range_succ, List.foldl_append, List.foldl_cons, List.foldl_nil, State.getV_setV, h₂]
      have hr : r = BitVec.ofNat 4 n ↔ r.toNat = n := by
        rw [← BitVec.toNat_inj, BitVec.toNat_ofNat, Nat.mod_eq_of_lt (by omega)]
      by_cases h : r.toNat = n
      · simp [hr, h]
      · simp [hr, h, show r.toNat < n + 1 ↔ r.toNat < n by omega]

/-- Loading a block changes registers alone. -/
theorem State.loadBlock_eq (a : Nat) (x : Nibble) :
    s.loadBlock a x = { s with v := (s.loadBlock a x).v } :=
  (State.loadFold s (fun k => s.memRead (a + k)) (x.toNat + 1) (by have := x.isLt; omega)).1

/-- Registers 0 .. x take the bytes at ascending addresses; the others are as before. -/
theorem State.getV_loadBlock (a : Nat) (x r : Nibble) :
    (s.loadBlock a x).getV r = if r.toNat ≤ x.toNat then s.memRead (a + r.toNat) else s.getV r := by
  have := (State.loadFold s (fun k => s.memRead (a + k)) (x.toNat + 1) (by have := x.isLt; omega)).2 r
  simpa [State.loadBlock, Nat.lt_succ_iff] using this

/-! ### The call stack -/

theorem State.push_full (w : Word) (h : s.sp = 16) : s.push w = none := by simp [State.push, h]

/-- A push below the limit writes the cell `SP` names and counts it. -/
theorem State.push_room (w : Word) (h : s.sp ≠ 16) :
    ∃ (hsp : s.sp.val < 16), s.push w = some { s with stack := s.stack.set s.sp.val w, sp := ⟨s.sp.val + 1, by omega⟩ } := by
  have hsp : s.sp.val < 16 := by
    have := s.sp.isLt
    have : s.sp.val ≠ 16 := fun e => h (Fin.ext e)
    omega
  exact ⟨hsp, by simp [State.push, hsp]⟩

theorem State.pop_empty (h : s.sp = 0) : s.pop = none := by simp [State.pop, h]

/-- A pop above zero uncovers the cell below and leaves every cell as it is. -/
theorem State.pop_some (h : s.sp ≠ 0) :
    ∃ (hsp : s.sp.val - 1 < 16), s.pop = some (s.stack[s.sp.val - 1], { s with sp := ⟨s.sp.val - 1, by omega⟩ }) := by
  have h0 : 0 < s.sp.val := Nat.pos_of_ne_zero fun e => h (Fin.ext e)
  have hsp : s.sp.val - 1 < 16 := by have := s.sp.isLt; omega
  exact ⟨hsp, by simp [State.pop, h0]⟩

/-! ### Fetch, tick, the end of a step -/

/-- Big-endian: the first byte is the high one (R53). -/
theorem opcodeOf_toNat (hi lo : Byte) : (opcodeOf hi lo).toNat = hi.toNat * 256 + lo.toNat := by
  have h : (opcodeOf hi lo).toNat = hi.toNat <<< 8 ||| lo.toNat := BitVec.toNat_append hi lo
  rw [h, ← Nat.shiftLeft_add_eq_or_of_lt lo.isLt, Nat.shiftLeft_eq]

/-- The fetch depends on memory and the low 12 bits of `PC` alone (R91). -/
theorem State.fetch_congr {s t : State} (hm : t.mem = s.mem) (hp : t.pc.toNat % 4096 = s.pc.toNat % 4096) :
    t.fetch = s.fetch := by
  have h1 : (t.pc.toNat + 1) % 4096 = (s.pc.toNat + 1) % 4096 := by omega
  simp [State.fetch, State.memRead, hm, hp, h1]

@[simp] theorem State.fetch_tick : s.tick.fetch = s.fetch := rfl

/-- A timer counts down by one and stops at 0 (R96). -/
theorem tickTimer_toNat (t : Byte) : (tickTimer t).toNat = t.toNat - 1 := by
  unfold tickTimer
  split_ifs with h
  · have : 0 < t.toNat := by simpa [BitVec.lt_def] using h
    rw [BitVec.toNat_sub_of_le (by simp [BitVec.le_def]; omega)]; rfl
  · have : t = 0 := by
      have : ¬0 < t.toNat := by simpa [BitVec.lt_def] using h
      exact BitVec.eq_of_toNat_eq (by simp; omega)
    simp [this]

/-- A step that answers a next state is an instruction that completed, then a tick. -/
theorem step_next_iff (s t : State) :
    step s = .next t ↔ ∃ i u, decode s.fetch = some i ∧ exec i s = .next u ∧ t = u.tick := by
  unfold step
  cases hd : decode s.fetch with
  | none => simp [raise]
  | some i =>
    cases he : exec i s with
    | next u => simp [finishStep, he, eq_comm]
    | fault f => simp [finishStep, he]
    | refused r => simp [finishStep, he]

/-- A step is fatal by its word or by its instruction. -/
theorem step_fault_iff (s : State) (f : Fault) :
    step s = .fault f ↔ (decode s.fetch = none ∧ f = .decodeError s.fetch) ∨
      ∃ i, decode s.fetch = some i ∧ exec i s = .fault f := by
  unfold step
  cases hd : decode s.fetch with
  | none => simp [raise, eq_comm]
  | some i =>
    cases he : exec i s with
    | next u => simp [finishStep, he]
    | fault g => simp [finishStep, he]
    | refused r => simp [finishStep, he]

/-- The instruction `withFetchWord` places is the one the next step fetches. -/
theorem State.fetch_withFetchWord (w : Nat) : (s.withFetchWord 16 w).fetch = BitVec.ofNat 16 w := by
  have hlen : (tableBytes 16 w).length = 2 := rfl
  have h0 := State.memRead_storeBytes_inside s s.pc.toNat 0 (tableBytes 16 w) (by simp [hlen]) (by simp [hlen])
  have h1 := State.memRead_storeBytes_inside s s.pc.toNat 1 (tableBytes 16 w) (by simp [hlen]) (by simp [hlen])
  have hpc : (s.storeBytes s.pc.toNat (tableBytes 16 w)).pc = s.pc := by simp
  simp only [State.withFetchWord, State.placeAtPc, State.fetch, hpc]
  rw [Nat.add_zero] at h0
  rw [h0, h1]
  apply BitVec.eq_of_toNat_eq
  simp [tableBytes, opcodeOf_toNat]
  omega

end Sys2Proof.Machine
end

