-- ==== Sys2Proof/Laws/Operands.lean ====
section
/-! SUPPORT. The laws of the operand forms (Machine/Operands.lean) and of the flags (Machine/Flags.lean). -/

namespace Sys2Proof.Machine

variable (s : State)

/-! ### Immediates and addresses -/

@[simp] theorem addrImm_toNat (nnn : Addr12) : (addrImm nnn).toNat = nnn.toNat := by
  have := nnn.isLt
  simp only [addrImm, BitVec.toNat_setWidth]
  omega

@[simp] theorem State.wideV_toNat (x : Nibble) : (s.wideV x).toNat = (s.getV x).toNat := by
  have := (s.getV x).isLt
  simp only [State.wideV, BitVec.toNat_setWidth]
  omega

/-- The font formula needs no reduction (R127). -/
@[simp] theorem glyphAddress_toNat (g : Byte) : (glyphAddress g).toNat = 0x050 + 5 * g.toNat := by
  have := g.isLt
  simp only [glyphAddress, Config.fontBase, BitVec.toNat_ofNat]
  omega

@[simp] theorem State.indexed_zero : s.indexed 0 = s.i.toNat := rfl

/-! ### Blocks -/

@[simp] theorem State.block_length (x : Nibble) : (s.block x).length = x.toNat + 1 := by simp [State.block]

theorem State.block_get (x : Nibble) (k : Nat) (h : k < (s.block x).length) :
    (s.block x)[k] = s.getV (BitVec.ofNat 4 k) := by simp [State.block]

@[simp] theorem bcdDigits_length (b : Byte) : (bcdDigits b).length = 3 := rfl

/-! ### Keys -/

/-- The low four bits (R151). -/
theorem State.keyIndex_toNat (x : Nibble) : (s.keyIndex x).toNat = (s.getV x).toNat % 16 := by
  simp [State.keyIndex, BitVec.extractLsb'_toNat]

theorem mem_keyNumbers (k : Nibble) : k ∈ keyNumbers :=
  List.mem_map.2 ⟨k.toNat, List.mem_range.2 k.isLt, by simp⟩

/-- No key is found exactly when none is pressed (R147). -/
theorem State.lowestKey_none : s.lowestKey = none ↔ ∀ k, s.key k = false := by
  simp only [State.lowestKey, List.find?_eq_none, Bool.not_eq_true]
  exact ⟨fun h k => h k (mem_keyNumbers k), fun h k _ => h k⟩

theorem pairwise_keyNumbers : keyNumbers.Pairwise (fun j k => j.toNat < k.toNat) := by decide

/-- The key found is pressed, and no lower one is (R147). -/
theorem State.lowestKey_some {k : Nibble} (h : s.lowestKey = some k) :
    s.key k = true ∧ ∀ j : Nibble, j.toNat < k.toNat → s.key j = false := by
  obtain ⟨hk, as, bs, he, hn⟩ := List.find?_eq_some_iff_append.1 h
  refine ⟨hk, fun j hj => ?_⟩
  have hp := pairwise_keyNumbers
  rw [he] at hp
  have hm : j ∈ as ++ k :: bs := he ▸ mem_keyNumbers j
  rcases List.mem_append.1 hm with hm | hm
  · simpa using hn j hm
  · rcases List.mem_cons.1 hm with rfl | hm
    · omega
    · have := (List.pairwise_cons.1 (List.pairwise_append.1 hp).2.1).1 j hm
      omega

theorem State.lowestKey_isSome : s.lowestKey.isSome ↔ ∃ k, s.key k = true := by
  rw [Option.isSome_iff_ne_none, ne_eq, State.lowestKey_none]
  simp

/-! ### Flags -/

@[simp] theorem flagByte_true : flagByte true = 1 := rfl
@[simp] theorem flagByte_false : flagByte false = 0 := rfl

/-- A flag is 0 or 1, and 1 exactly when its condition holds. -/
theorem flagByte_eq_one (c : Bool) : flagByte c = 1 ↔ c = true := by cases c <;> decide

theorem flagByte_eq (c : Bool) : flagByte c = if c = true then 1 else 0 := rfl

end Sys2Proof.Machine
end

