-- ==== Sys2Proof/Laws/Display.lean ====
section
/-! SUPPORT. The law of the sprite blitter (spec 44_display R136-R138): the two loops toggle exactly the cells the sprite
covers, and report a collision exactly when a covered cell was on. -/

namespace Sys2Proof.Machine

/-- `t` is `b` with the cells of `S` toggled, the collision recorded. -/
def Blit.Toggles (b t : Blit) (S : Nat → Prop) : Prop :=
  (∀ k, t.fb.getLsbD k = true ↔ ¬(b.fb.getLsbD k = true ↔ S k)) ∧
  (t.hit = true ↔ b.hit = true ∨ ∃ k, S k ∧ b.fb.getLsbD k = true)

theorem Blit.Toggles.congr {b t : Blit} {S T : Nat → Prop} (h : b.Toggles t S) (he : ∀ k, S k ↔ T k) :
    b.Toggles t T := by
  simpa only [Blit.Toggles, he] using h

theorem Blit.toggles_none (b : Blit) : b.Toggles b (fun _ => False) := by simp [Blit.Toggles]

theorem Blit.toggles_one (b : Blit) {k : Nat} (hk : k < 2048) : b.Toggles (b.toggle k) (fun j => j = k) := by
  refine ⟨fun j => ?_, by simp [Blit.toggle]⟩
  by_cases hj : j = k
  · subst hj; simp [Blit.toggle, hk]
  · have : ¬(j < 2048 ∧ ¬j < k ∧ j - k = 0) := by omega
    have : (1#2048 <<< k).getLsbD j = false := by
      simp only [BitVec.getLsbD_shiftLeft, BitVec.getLsbD_one]
      by_cases h : j < 2048 <;> by_cases h' : j < k <;> simp [h, h']
      omega
    simp [Blit.toggle, hj, this]

/-- Two disjoint sets of cells, one after the other. -/
theorem Blit.Toggles.trans {b t u : Blit} {S T : Nat → Prop} (h : b.Toggles t S) (h' : t.Toggles u T)
    (hd : ∀ k, S k → ¬T k) : b.Toggles u (fun k => S k ∨ T k) := by
  refine ⟨fun k => ?_, ?_⟩
  · rw [h'.1 k, h.1 k]
    have := hd k
    tauto
  · rw [h'.2, h.2]
    constructor
    · rintro ((hb | ⟨k, hS, hk⟩) | ⟨k, hT, hk⟩)
      · exact .inl hb
      · exact .inr ⟨k, .inl hS, hk⟩
      · have := h.1 k
        have := hd k
        exact .inr ⟨k, .inr hT, by tauto⟩
    · rintro (hb | ⟨k, hS | hT, hk⟩)
      · exact .inl (.inl hb)
      · exact .inl (.inr ⟨k, hS, hk⟩)
      · have := h.1 k
        have := hd k
        exact .inr ⟨k, hT, by tauto⟩

/-- A loop whose passes toggle pairwise disjoint sets toggles their union. -/
theorem Blit.toggles_fold (f : Blit → Nat → Blit) (S : Nat → Nat → Prop) (n : Nat)
    (hf : ∀ (b : Blit) (c : Nat), c < n → b.Toggles (f b c) (S c)) (hd : ∀ c d k, c < n → d < n → S c k → S d k → c = d) (b : Blit) :
    b.Toggles ((List.range n).foldl f b) (fun k => ∃ c < n, S c k) := by
  induction n with
  | zero => exact (Blit.toggles_none b).congr (by simp)
  | succ n ih =>
    rw [List.range_succ, List.foldl_append]
    have h₁ := ih (fun b c hc => hf b c (by omega)) (fun c d k hc hd' => hd c d k (by omega) (by omega))
    refine (h₁.trans (hf _ n (by omega)) ?_).congr fun k => ?_
    · rintro k ⟨c, hc, hS⟩ hn
      exact absurd (hd c n k (by omega) (by omega) hS hn) (by omega)
    · constructor
      · rintro (⟨c, hc, hS⟩ | hS)
        · exact ⟨c, by omega, hS⟩
        · exact ⟨n, by omega, hS⟩
      · rintro ⟨c, hc, hS⟩
        rcases Nat.lt_succ_iff_lt_or_eq.1 hc with h | rfl
        · exact .inl ⟨c, h, hS⟩
        · exact .inr hS

/-- The inner loop: the set bits of one sprite row. -/
theorem Blit.row_toggles (b : Blit) (byte : Byte) {r x0 : Nat} (hr : r < 32) :
    b.Toggles (b.row byte r x0)
      (fun k => ∃ col < 8, spriteBit byte col = true ∧ k = r * 64 + (x0 + col) % 64) := by
  refine Blit.toggles_fold _ (fun col k => spriteBit byte col = true ∧ k = r * 64 + (x0 + col) % 64) 8 ?_ ?_ b
  · intro b col _
    by_cases h : spriteBit byte col = true
    · simp only [h, if_true, true_and]
      exact Blit.toggles_one b (k := r * 64 + (x0 + col) % 64) (by omega)
    · rw [if_neg h]
      exact (Blit.toggles_none b).congr fun k => (iff_of_false not_false fun hk => h hk.1)
  · rintro c d k hc hd ⟨-, hc'⟩ ⟨-, hd'⟩
    omega

/-- The blitter's law: it toggles the cells the sprite covers. -/
theorem State.blit_toggles (s : State) (x0 y0 n : Nat) (hn : n ≤ 15) :
    (Blit.mk s.fb false).Toggles (s.blit x0 y0 n) (fun k => ∃ row < n, ∃ col < 8,
      spriteBit (s.spriteByte row) col = true ∧ k = (y0 + row) % 32 * 64 + (x0 + col) % 64) := by
  refine Blit.toggles_fold _ (fun row k => ∃ col < 8, spriteBit (s.spriteByte row) col = true ∧
    k = (y0 + row) % 32 * 64 + (x0 + col) % 64) n (fun b row _ => ?_) ?_ _
  · exact Blit.row_toggles b (s.spriteByte row) (r := (y0 + row) % 32) (x0 := x0) (by omega)
  · rintro c d k hc hd ⟨i, hi, -, hi'⟩ ⟨j, hj, -, hj'⟩
    omega

/-- The loops' cells are the cells of the closed form. -/
theorem State.spriteCovers_iff (s : State) (x y n : Nibble) (k : Nat) :
    s.spriteCovers x y n k = true ↔ ∃ row < n.toNat, ∃ col < 8,
      spriteBit (s.spriteByte row) col = true ∧
        k = (s.spriteRow y + row) % 32 * 64 + (s.spriteColumn x + col) % 64 := by
  have hn := n.isLt
  simp only [State.spriteCovers, Bool.and_eq_true, decide_eq_true_eq, State.spriteRow, State.spriteColumn, spriteBit, Config.rows,
    Config.columns,
    State.spriteByte, State.indexed]
  constructor
  · rintro ⟨⟨⟨hk, hr⟩, hc⟩, hb⟩
    exact ⟨_, hr, _, hc, hb, by omega⟩
  · rintro ⟨row, hr, col, hc, hb, rfl⟩
    have h₁ : (((s.getV y).toNat % 32 + row) % 32 * 64 + ((s.getV x).toNat % 64 + col) % 64) / 64
        = ((s.getV y).toNat % 32 + row) % 32 := by omega
    have h₂ : (((s.getV y).toNat % 32 + row) % 32 * 64 + ((s.getV x).toNat % 64 + col) % 64) % 64
        = ((s.getV x).toNat % 64 + col) % 64 := by omega
    have h₃ : (((s.getV y).toNat % 32 + row) % 32 + 32 - (s.getV y).toNat % 32) % 32 = row := by omega
    have h₄ : (((s.getV x).toNat % 64 + col) % 64 + 64 - (s.getV x).toNat % 64) % 64 = col := by omega
    rw [h₁, h₂, h₃, h₄]
    exact ⟨⟨⟨by omega, hr⟩, hc⟩, hb⟩

/-- What `Dxyn`'s blit does, in the closed form. -/
theorem State.blit_covers (s : State) (x y n : Nibble) :
    (Blit.mk s.fb false).Toggles (s.blit (s.spriteColumn x) (s.spriteRow y) n.toNat)
      (fun k => s.spriteCovers x y n k = true) :=
  (State.blit_toggles s _ _ _ (by have := n.isLt; omega)).congr fun k => (State.spriteCovers_iff s x y n k).symm

end Sys2Proof.Machine
end

