-- ==== Sys2Proof/Laws/Encoding.lean ====
section
/-! SUPPORT. The fields of a word built by the encoder, and the bits of each format. -/

namespace Sys2Proof

/-! ### Words as numbers -/

theorem wordNnn_toNat (op : Nibble) (nnn : Addr12) : (wordNnn op nnn).toNat = op.toNat * 4096 + nnn.toNat := by
  have h : (wordNnn op nnn).toNat = op.toNat <<< 12 ||| nnn.toNat := BitVec.toNat_append op nnn
  rw [h, ← Nat.shiftLeft_add_eq_or_of_lt nnn.isLt, Nat.shiftLeft_eq]

theorem nibbles_toNat (a b : Nibble) : (a ++ b).toNat = a.toNat * 16 + b.toNat := by
  rw [BitVec.toNat_append, ← Nat.shiftLeft_add_eq_or_of_lt b.isLt, Nat.shiftLeft_eq]

theorem wordXkk_toNat (op x : Nibble) (kk : Byte) :
    (wordXkk op x kk).toNat = op.toNat * 4096 + x.toNat * 256 + kk.toNat := by
  have h : (wordXkk op x kk).toNat = (op ++ x).toNat <<< 8 ||| kk.toNat := BitVec.toNat_append (op ++ x) kk
  rw [h, ← Nat.shiftLeft_add_eq_or_of_lt kk.isLt, Nat.shiftLeft_eq, nibbles_toNat]
  omega

theorem wordXyn_toNat (op x y n : Nibble) :
    (wordXyn op x y n).toNat = op.toNat * 4096 + x.toNat * 256 + y.toNat * 16 + n.toNat := by
  have h : (wordXyn op x y n).toNat = (op ++ x ++ y).toNat <<< 4 ||| n.toNat := BitVec.toNat_append (op ++ x ++ y) n
  have h' : (op ++ x ++ y).toNat = (op ++ x).toNat <<< 4 ||| y.toNat := BitVec.toNat_append (op ++ x) y
  rw [h, ← Nat.shiftLeft_add_eq_or_of_lt n.isLt, h', ← Nat.shiftLeft_add_eq_or_of_lt y.isLt, nibbles_toNat]
  simp only [Nat.shiftLeft_eq]
  omega

/-! ### Fields as numbers (R71) -/

theorem fieldOp_toNat (w : Word) : (fieldOp w).toNat = w.toNat / 4096 := by
  have := w.isLt
  simp only [fieldOp, BitVec.extractLsb'_toNat, Nat.shiftRight_eq_div_pow]
  omega

theorem fieldX_toNat (w : Word) : (fieldX w).toNat = w.toNat / 256 % 16 := by
  simp [fieldX, BitVec.extractLsb'_toNat, Nat.shiftRight_eq_div_pow]

theorem fieldY_toNat (w : Word) : (fieldY w).toNat = w.toNat / 16 % 16 := by
  simp [fieldY, BitVec.extractLsb'_toNat, Nat.shiftRight_eq_div_pow]

theorem fieldN_toNat (w : Word) : (fieldN w).toNat = w.toNat % 16 := by
  simp [fieldN, BitVec.extractLsb'_toNat]

theorem fieldKk_toNat (w : Word) : (fieldKk w).toNat = w.toNat % 256 := by
  simp [fieldKk, BitVec.extractLsb'_toNat]

theorem fieldNnn_toNat (w : Word) : (fieldNnn w).toNat = w.toNat % 4096 := by
  simp [fieldNnn, BitVec.extractLsb'_toNat]

/-! ### The fields of an encoded word -/

section
variable (op x y n : Nibble) (kk : Byte) (nnn : Addr12)

@[simp] theorem fieldOp_wordNnn : fieldOp (wordNnn op nnn) = op := by
  apply BitVec.eq_of_toNat_eq
  have := nnn.isLt
  rw [fieldOp_toNat, wordNnn_toNat]; omega

@[simp] theorem fieldNnn_wordNnn : fieldNnn (wordNnn op nnn) = nnn := by
  apply BitVec.eq_of_toNat_eq
  have := nnn.isLt
  rw [fieldNnn_toNat, wordNnn_toNat]; omega

@[simp] theorem fieldOp_wordXkk : fieldOp (wordXkk op x kk) = op := by
  apply BitVec.eq_of_toNat_eq
  have := kk.isLt; have := x.isLt
  rw [fieldOp_toNat, wordXkk_toNat]; omega

@[simp] theorem fieldX_wordXkk : fieldX (wordXkk op x kk) = x := by
  apply BitVec.eq_of_toNat_eq
  have := kk.isLt; have := x.isLt
  rw [fieldX_toNat, wordXkk_toNat]; omega

@[simp] theorem fieldKk_wordXkk : fieldKk (wordXkk op x kk) = kk := by
  apply BitVec.eq_of_toNat_eq
  have := kk.isLt
  rw [fieldKk_toNat, wordXkk_toNat]; omega

@[simp] theorem fieldOp_wordXyn : fieldOp (wordXyn op x y n) = op := by
  apply BitVec.eq_of_toNat_eq
  have := x.isLt; have := y.isLt; have := n.isLt
  rw [fieldOp_toNat, wordXyn_toNat]; omega

@[simp] theorem fieldX_wordXyn : fieldX (wordXyn op x y n) = x := by
  apply BitVec.eq_of_toNat_eq
  have := x.isLt; have := y.isLt; have := n.isLt
  rw [fieldX_toNat, wordXyn_toNat]; omega

@[simp] theorem fieldY_wordXyn : fieldY (wordXyn op x y n) = y := by
  apply BitVec.eq_of_toNat_eq
  have := y.isLt; have := n.isLt
  rw [fieldY_toNat, wordXyn_toNat]; omega

@[simp] theorem fieldN_wordXyn : fieldN (wordXyn op x y n) = n := by
  apply BitVec.eq_of_toNat_eq
  have := n.isLt
  rw [fieldN_toNat, wordXyn_toNat]; omega

end

/-! ### A word is its fields put together -/

theorem wordNnn_fields (w : Word) : wordNnn (fieldOp w) (fieldNnn w) = w := by
  apply BitVec.eq_of_toNat_eq
  rw [wordNnn_toNat, fieldOp_toNat, fieldNnn_toNat]; omega

theorem wordXkk_fields (w : Word) : wordXkk (fieldOp w) (fieldX w) (fieldKk w) = w := by
  apply BitVec.eq_of_toNat_eq
  rw [wordXkk_toNat, fieldOp_toNat, fieldX_toNat, fieldKk_toNat]; omega

theorem wordXyn_fields (w : Word) : wordXyn (fieldOp w) (fieldX w) (fieldY w) (fieldN w) = w := by
  apply BitVec.eq_of_toNat_eq
  rw [wordXyn_toNat, fieldOp_toNat, fieldX_toNat, fieldY_toNat, fieldN_toNat]; omega

/-! ### The masks of R72 on a word -/

theorem and_maskTop (w : Word) : w &&& 0xF000#16 = wordNnn (fieldOp w) 0 := by
  apply BitVec.eq_of_getLsbD_eq
  intro k hk
  have h : (wordNnn (fieldOp w) 0).getLsbD k = if k < 12 then (0#12).getLsbD k else (fieldOp w).getLsbD (k - 12) :=
    BitVec.getLsbD_append
  rw [h, BitVec.getLsbD_and]
  interval_cases k <;> simp [fieldOp]

theorem and_maskX (w : Word) : w &&& 0xF0FF#16 = wordXkk (fieldOp w) 0 (fieldKk w) := by
  apply BitVec.eq_of_getLsbD_eq
  intro k hk
  have h : (wordXkk (fieldOp w) 0 (fieldKk w)).getLsbD k =
      if k < 8 then (fieldKk w).getLsbD k else (fieldOp w ++ 0#4).getLsbD (k - 8) := BitVec.getLsbD_append
  rw [h, BitVec.getLsbD_and, BitVec.getLsbD_append]
  interval_cases k <;> simp [fieldOp, fieldKk]

theorem and_maskXy (w : Word) : w &&& 0xF00F#16 = wordXyn (fieldOp w) 0 0 (fieldN w) := by
  apply BitVec.eq_of_getLsbD_eq
  intro k hk
  have h : (wordXyn (fieldOp w) 0 0 (fieldN w)).getLsbD k =
      if k < 4 then (fieldN w).getLsbD k else (fieldOp w ++ 0#4 ++ 0#4).getLsbD (k - 4) := BitVec.getLsbD_append
  rw [h, BitVec.getLsbD_and, BitVec.getLsbD_append, BitVec.getLsbD_append]
  interval_cases k <;> simp [fieldOp, fieldN]

theorem and_maskFix (w : Word) : w &&& 0xFFFF#16 = w := BitVec.and_allOnes

end Sys2Proof
end

