-- ==== Sys2Proof/Laws/Exec.lean ====
section
/-! SUPPORT. What the two stack instructions and the key wait can do, said once; the fields a block load leaves; what a store
depends on; how a load ends; the flags and shifts as numbers. The other meanings unfold to one line. -/

namespace Sys2Proof.Machine

variable (s : State)

/-! ### Control transfer and the key wait -/

/-- `2nnn` below the limit (R102). -/
theorem exec_call_room (nnn : Addr12) (h : s.sp ≠ 16) :
    ∃ hsp : s.sp.val < 16, exec (.call nnn) s =
      .next { s with pc := addrImm nnn, stack := s.stack.set s.sp.val (s.pc + 2), sp := ⟨s.sp.val + 1, by omega⟩ } := by
  obtain ⟨hsp, hp⟩ := s.push_room (s.pc + 2) h
  refine ⟨hsp, ?_⟩
  simp only [exec, execCall, hp]
  rfl

/-- `2nnn` at the limit (R157). -/
theorem exec_call_full (nnn : Addr12) (h : s.sp = 16) : exec (.call nnn) s = .fault .stackOverflow := by
  simp only [exec, execCall, State.push_full _ _ h, raise]

/-- `00EE` above zero (R100). -/
theorem exec_ret_some (h : s.sp ≠ 0) :
    ∃ hsp : s.sp.val - 1 < 16, exec .ret s =
      .next { s with pc := s.stack[s.sp.val - 1], sp := ⟨s.sp.val - 1, by omega⟩ } := by
  obtain ⟨hsp, hp⟩ := s.pop_some h
  refine ⟨hsp, ?_⟩
  simp only [exec, execRet, hp]
  rfl

/-- `00EE` at zero (R158). -/
theorem exec_ret_empty (h : s.sp = 0) : exec .ret s = .fault .stackUnderflow := by
  simp only [exec, execRet, State.pop_empty _ h, raise]

/-- `Fx0A` with no key pressed (R147). -/
theorem exec_ldVxKey_none (x : Nibble) (h : s.lowestKey = none) : exec (.ldVxKey x) s = .next s := by
  simp only [exec, execLdVxKey, h]

/-- `Fx0A` with a key pressed (R147). -/
theorem exec_ldVxKey_some (x : Nibble) {k : Nibble} (h : s.lowestKey = some k) :
    exec (.ldVxKey x) s = .next (s.setV x (k.setWidth 8)).advance := by
  simp only [exec, execLdVxKey, h]

/-- The key named by the rule is the one found (R147). -/
theorem State.lowestKey_eq {k : Nibble} (hk : s.key k = true) (hl : ∀ j : Nibble, j.toNat < k.toNat → s.key j = false) :
    s.lowestKey = some k := by
  cases h : s.lowestKey with
  | none => simp [(s.lowestKey_none).1 h k] at hk
  | some j =>
    obtain ⟨hj, hl'⟩ := s.lowestKey_some h
    rcases Nat.lt_trichotomy j.toNat k.toNat with hlt | he | hlt
    · simp [hl j hlt] at hj
    · rw [BitVec.eq_of_toNat_eq he]
    · simp [hl' k hlt] at hk

/-! ### Memory -/

section
variable (a : Nat) (x : Nibble)
@[simp] theorem State.loadBlock_i : (s.loadBlock a x).i = s.i := by rw [State.loadBlock_eq]
@[simp] theorem State.loadBlock_pc : (s.loadBlock a x).pc = s.pc := by rw [State.loadBlock_eq]
@[simp] theorem State.loadBlock_stack : (s.loadBlock a x).stack = s.stack := by rw [State.loadBlock_eq]
@[simp] theorem State.loadBlock_sp : (s.loadBlock a x).sp = s.sp := by rw [State.loadBlock_eq]
@[simp] theorem State.loadBlock_dt : (s.loadBlock a x).dt = s.dt := by rw [State.loadBlock_eq]
@[simp] theorem State.loadBlock_st : (s.loadBlock a x).st = s.st := by rw [State.loadBlock_eq]
@[simp] theorem State.loadBlock_keys : (s.loadBlock a x).keys = s.keys := by rw [State.loadBlock_eq]
@[simp] theorem State.loadBlock_fb : (s.loadBlock a x).fb = s.fb := by rw [State.loadBlock_eq]
@[simp] theorem State.loadBlock_redraw : (s.loadBlock a x).redraw = s.redraw := by rw [State.loadBlock_eq]
@[simp] theorem State.loadBlock_mem : (s.loadBlock a x).mem = s.mem := by rw [State.loadBlock_eq]
@[simp] theorem State.loadBlock_draws : (s.loadBlock a x).draws = s.draws := by rw [State.loadBlock_eq]
end

/-- What a store leaves in memory depends on memory, the bytes and the low 12 bits of the address alone (R50). -/
theorem State.storeBytes_mem_congr {s t : State} (hm : t.mem = s.mem) {a c : Nat} (h : c % 4096 = a % 4096)
    (bytes : List Byte) : (t.storeBytes c bytes).mem = (s.storeBytes a bytes).mem := by
  induction bytes generalizing s t a c with
  | nil => exact hm
  | cons b rest ih => exact ih (by simp [State.memWrite, hm, h]) (by omega)

/-- Storing what unlisted addresses read as, over memory with nothing listed, lists nothing. -/
theorem State.storeBytes_initial {s : State} (hm : s.mem = []) (a : Nat) (bytes : List Byte)
    (hb : ∀ k (h : k < bytes.length), bytes[k] = Memory.initial ((a + k) % 4096)) : (s.storeBytes a bytes).mem = [] := by
  induction bytes generalizing s a with
  | nil => exact hm
  | cons b rest ih =>
    have h0 : b = Memory.initial (a % 4096) := hb 0 (Nat.succ_pos _)
    refine ih (by simp [State.memWrite, hm, Memory.write, h0, Memory.drop]) (a + 1) fun k h => ?_
    have := hb (k + 1) (by simpa using h)
    rwa [show a + (k + 1) = a + 1 + k by omega] at this

/-- Adding keeps two addresses equal (R50). -/
theorem SameAddress.add {a b : Word} (h : SameAddress a b) (c : Word) : SameAddress (a + c) (b + c) := by
  unfold SameAddress at *
  simp only [BitVec.toNat_add]
  omega

/-! ### The host's load -/

/-- The two ways `load` can fail (R159, R177), as the host sees them. -/
theorem State.hostLoad_bad (bytes : List Byte) (h : bytes.length = 0 ∨ 3584 < bytes.length) :
    s.load bytes = .error .loadError ∧ s.hostLoad bytes = (.loadError, s) := by
  have hl : s.load bytes = .error .loadError := if_pos h
  exact ⟨hl, by simp only [State.hostLoad, hl, LoadError.result]⟩

/-- A load of a fitting size stores its bytes at 0x200 and succeeds (R177). -/
theorem State.hostLoad_fits (bytes : List Byte) (h₀ : 0 < bytes.length) (h₁ : bytes.length ≤ 3584) :
    s.load bytes = .ok (s.storeBytes 0x200 bytes) ∧ s.hostLoad bytes = (.success, s.storeBytes 0x200 bytes) := by
  have hl : s.load bytes = .ok (s.storeBytes 0x200 bytes) := if_neg (by simp only [Config.romMax]; omega)
  exact ⟨hl, by simp only [State.hostLoad, hl]⟩

/-! ### The program counter, flags and shifts as numbers -/

theorem State.skipIf_pc_toNat (c : Bool) : (s.skipIf c).pc.toNat = (s.pc.toNat + if c = true then 4 else 2) % 65536 := by
  simp only [State.skipIf_pc, BitVec.toNat_add]
  cases c <;> rfl

theorem advanced_advance {s t : State} (h : t.pc = s.pc) : Advanced s t.advance := by
  simp [Advanced, h, BitVec.toNat_add]

theorem sub_toNat_add (a b : Byte) : (a - b).toNat = (256 + a.toNat - b.toNat) % 256 := by
  have := a.isLt
  have := b.isLt
  rw [BitVec.toNat_sub]
  omega

theorem lowBitFlag_toNat (a : Byte) : (lowBitFlag a).toNat = a.toNat % 2 := by revert a; decide
theorem highBitFlag_toNat (a : Byte) : (highBitFlag a).toNat = a.toNat / 128 := by revert a; decide
theorem ushiftRight_one_toNat (a : Byte) : (a >>> 1).toNat = a.toNat / 2 := by revert a; decide
theorem shiftLeft_one_toNat (a : Byte) : (a <<< 1).toNat = 2 * a.toNat % 256 := by revert a; decide

end Sys2Proof.Machine
end

