-- ==== Sys2Proof/Laws/PerInstr.lean ====
section
/-! SUPPORT. Per instruction: its word is selected by its own row of the opcode map (spec 30_encoding R72, R74), the row is
one of the 34, and its operands are in range (R73). -/

namespace Sys2Proof

theorem nibbleOk_true (f : Nibble) : nibbleOk f = true := decide_eq_true f.isLt
theorem byteOk_true (kk : Byte) : byteOk kk = true := decide_eq_true kk.isLt
theorem addrOk_true (nnn : Addr12) : addrOk nnn = true := decide_eq_true nnn.isLt

/-- Every operand type carries its field's range (R73). -/
theorem Instr.wellFormed_true (i : Instr) : i.wellFormed = true := by
  cases i <;> simp [Instr.wellFormed, nibbleOk_true, byteOk_true, addrOk_true]

/-- The family: an instruction's row is in the table, and selects the instruction's word. -/
def Laws.EncodesToRow.Statement (i : Instr) : Prop :=
  i.wellFormed = true ∧ i.row ∈ opcodeTable ∧ i.row.selects (encode i) = true

theorem selects_nnn {r : Row} {op : Nibble} {nnn : Addr12} (hf : r.format.mask = 0xF000#16)
    (hp : wordNnn op 0 = r.pattern) : r.selects (wordNnn op nnn) = true := by
  rw [Row.selects, hf, and_maskTop]; simpa using hp

theorem selects_xkk {r : Row} {op x : Nibble} {kk : Byte} (hf : r.format.mask = 0xF000#16)
    (hp : wordNnn op 0 = r.pattern) : r.selects (wordXkk op x kk) = true := by
  rw [Row.selects, hf, and_maskTop]; simpa using hp

theorem selects_xyn {r : Row} {op x y n : Nibble} (hf : r.format.mask = 0xF000#16)
    (hp : wordNnn op 0 = r.pattern) : r.selects (wordXyn op x y n) = true := by
  rw [Row.selects, hf, and_maskTop]; simpa using hp

theorem selects_xy {r : Row} {op x y n : Nibble} (hf : r.format.mask = 0xF00F#16)
    (hp : wordXyn op 0 0 n = r.pattern) : r.selects (wordXyn op x y n) = true := by
  rw [Row.selects, hf, and_maskXy]; simpa using hp

theorem selects_x {r : Row} {op x : Nibble} {kk : Byte} (hf : r.format.mask = 0xF0FF#16)
    (hp : wordXkk op 0 kk = r.pattern) : r.selects (wordXkk op x kk) = true := by
  rw [Row.selects, hf, and_maskX]; simpa using hp


theorem Laws.EncodesToRow.cls : Laws.EncodesToRow.Statement (.cls) :=
  ⟨rfl, by decide, by decide⟩

theorem Laws.EncodesToRow.ret : Laws.EncodesToRow.Statement (.ret) :=
  ⟨rfl, by decide, by decide⟩

theorem Laws.EncodesToRow.jp (nnn : Addr12) : Laws.EncodesToRow.Statement (.jp nnn) :=
  ⟨Instr.wellFormed_true _, by simp [Instr.row, opcodeTable, opcodeTableLow, opcodeTableAlu, opcodeTableHigh], selects_nnn rfl rfl⟩

theorem Laws.EncodesToRow.call (nnn : Addr12) : Laws.EncodesToRow.Statement (.call nnn) :=
  ⟨Instr.wellFormed_true _, by simp [Instr.row, opcodeTable, opcodeTableLow, opcodeTableAlu, opcodeTableHigh], selects_nnn rfl rfl⟩

theorem Laws.EncodesToRow.seImm (x : Nibble) (kk : Byte) : Laws.EncodesToRow.Statement (.seImm x kk) :=
  ⟨Instr.wellFormed_true _, by simp [Instr.row, opcodeTable, opcodeTableLow, opcodeTableAlu, opcodeTableHigh], selects_xkk rfl rfl⟩

theorem Laws.EncodesToRow.sneImm (x : Nibble) (kk : Byte) : Laws.EncodesToRow.Statement (.sneImm x kk) :=
  ⟨Instr.wellFormed_true _, by simp [Instr.row, opcodeTable, opcodeTableLow, opcodeTableAlu, opcodeTableHigh], selects_xkk rfl rfl⟩

theorem Laws.EncodesToRow.seReg (x y : Nibble) : Laws.EncodesToRow.Statement (.seReg x y) :=
  ⟨Instr.wellFormed_true _, by simp [Instr.row, opcodeTable, opcodeTableLow, opcodeTableAlu, opcodeTableHigh], selects_xy rfl rfl⟩

theorem Laws.EncodesToRow.ldImm (x : Nibble) (kk : Byte) : Laws.EncodesToRow.Statement (.ldImm x kk) :=
  ⟨Instr.wellFormed_true _, by simp [Instr.row, opcodeTable, opcodeTableLow, opcodeTableAlu, opcodeTableHigh], selects_xkk rfl rfl⟩

theorem Laws.EncodesToRow.addImm (x : Nibble) (kk : Byte) : Laws.EncodesToRow.Statement (.addImm x kk) :=
  ⟨Instr.wellFormed_true _, by simp [Instr.row, opcodeTable, opcodeTableLow, opcodeTableAlu, opcodeTableHigh], selects_xkk rfl rfl⟩

theorem Laws.EncodesToRow.ldReg (x y : Nibble) : Laws.EncodesToRow.Statement (.ldReg x y) :=
  ⟨Instr.wellFormed_true _, by simp [Instr.row, opcodeTable, opcodeTableLow, opcodeTableAlu, opcodeTableHigh], selects_xy rfl rfl⟩

theorem Laws.EncodesToRow.orReg (x y : Nibble) : Laws.EncodesToRow.Statement (.orReg x y) :=
  ⟨Instr.wellFormed_true _, by simp [Instr.row, opcodeTable, opcodeTableLow, opcodeTableAlu, opcodeTableHigh], selects_xy rfl rfl⟩

theorem Laws.EncodesToRow.andReg (x y : Nibble) : Laws.EncodesToRow.Statement (.andReg x y) :=
  ⟨Instr.wellFormed_true _, by simp [Instr.row, opcodeTable, opcodeTableLow, opcodeTableAlu, opcodeTableHigh], selects_xy rfl rfl⟩

theorem Laws.EncodesToRow.xorReg (x y : Nibble) : Laws.EncodesToRow.Statement (.xorReg x y) :=
  ⟨Instr.wellFormed_true _, by simp [Instr.row, opcodeTable, opcodeTableLow, opcodeTableAlu, opcodeTableHigh], selects_xy rfl rfl⟩

theorem Laws.EncodesToRow.addReg (x y : Nibble) : Laws.EncodesToRow.Statement (.addReg x y) :=
  ⟨Instr.wellFormed_true _, by simp [Instr.row, opcodeTable, opcodeTableLow, opcodeTableAlu, opcodeTableHigh], selects_xy rfl rfl⟩

theorem Laws.EncodesToRow.subReg (x y : Nibble) : Laws.EncodesToRow.Statement (.subReg x y) :=
  ⟨Instr.wellFormed_true _, by simp [Instr.row, opcodeTable, opcodeTableLow, opcodeTableAlu, opcodeTableHigh], selects_xy rfl rfl⟩

theorem Laws.EncodesToRow.shr (x y : Nibble) : Laws.EncodesToRow.Statement (.shr x y) :=
  ⟨Instr.wellFormed_true _, by simp [Instr.row, opcodeTable, opcodeTableLow, opcodeTableAlu, opcodeTableHigh], selects_xy rfl rfl⟩

theorem Laws.EncodesToRow.subnReg (x y : Nibble) : Laws.EncodesToRow.Statement (.subnReg x y) :=
  ⟨Instr.wellFormed_true _, by simp [Instr.row, opcodeTable, opcodeTableLow, opcodeTableAlu, opcodeTableHigh], selects_xy rfl rfl⟩

theorem Laws.EncodesToRow.shl (x y : Nibble) : Laws.EncodesToRow.Statement (.shl x y) :=
  ⟨Instr.wellFormed_true _, by simp [Instr.row, opcodeTable, opcodeTableLow, opcodeTableAlu, opcodeTableHigh], selects_xy rfl rfl⟩

theorem Laws.EncodesToRow.sneReg (x y : Nibble) : Laws.EncodesToRow.Statement (.sneReg x y) :=
  ⟨Instr.wellFormed_true _, by simp [Instr.row, opcodeTable, opcodeTableLow, opcodeTableAlu, opcodeTableHigh], selects_xy rfl rfl⟩

theorem Laws.EncodesToRow.ldI (nnn : Addr12) : Laws.EncodesToRow.Statement (.ldI nnn) :=
  ⟨Instr.wellFormed_true _, by simp [Instr.row, opcodeTable, opcodeTableLow, opcodeTableAlu, opcodeTableHigh], selects_nnn rfl rfl⟩

theorem Laws.EncodesToRow.jpV0 (nnn : Addr12) : Laws.EncodesToRow.Statement (.jpV0 nnn) :=
  ⟨Instr.wellFormed_true _, by simp [Instr.row, opcodeTable, opcodeTableLow, opcodeTableAlu, opcodeTableHigh], selects_nnn rfl rfl⟩

theorem Laws.EncodesToRow.rnd (x : Nibble) (kk : Byte) : Laws.EncodesToRow.Statement (.rnd x kk) :=
  ⟨Instr.wellFormed_true _, by simp [Instr.row, opcodeTable, opcodeTableLow, opcodeTableAlu, opcodeTableHigh], selects_xkk rfl rfl⟩

theorem Laws.EncodesToRow.drw (x y n : Nibble) : Laws.EncodesToRow.Statement (.drw x y n) :=
  ⟨Instr.wellFormed_true _, by simp [Instr.row, opcodeTable, opcodeTableLow, opcodeTableAlu, opcodeTableHigh], selects_xyn rfl rfl⟩

theorem Laws.EncodesToRow.skp (x : Nibble) : Laws.EncodesToRow.Statement (.skp x) :=
  ⟨Instr.wellFormed_true _, by simp [Instr.row, opcodeTable, opcodeTableLow, opcodeTableAlu, opcodeTableHigh], selects_x rfl rfl⟩

theorem Laws.EncodesToRow.sknp (x : Nibble) : Laws.EncodesToRow.Statement (.sknp x) :=
  ⟨Instr.wellFormed_true _, by simp [Instr.row, opcodeTable, opcodeTableLow, opcodeTableAlu, opcodeTableHigh], selects_x rfl rfl⟩

theorem Laws.EncodesToRow.ldVxDt (x : Nibble) : Laws.EncodesToRow.Statement (.ldVxDt x) :=
  ⟨Instr.wellFormed_true _, by simp [Instr.row, opcodeTable, opcodeTableLow, opcodeTableAlu, opcodeTableHigh], selects_x rfl rfl⟩

theorem Laws.EncodesToRow.ldVxKey (x : Nibble) : Laws.EncodesToRow.Statement (.ldVxKey x) :=
  ⟨Instr.wellFormed_true _, by simp [Instr.row, opcodeTable, opcodeTableLow, opcodeTableAlu, opcodeTableHigh], selects_x rfl rfl⟩

theorem Laws.EncodesToRow.ldDtVx (x : Nibble) : Laws.EncodesToRow.Statement (.ldDtVx x) :=
  ⟨Instr.wellFormed_true _, by simp [Instr.row, opcodeTable, opcodeTableLow, opcodeTableAlu, opcodeTableHigh], selects_x rfl rfl⟩

theorem Laws.EncodesToRow.ldStVx (x : Nibble) : Laws.EncodesToRow.Statement (.ldStVx x) :=
  ⟨Instr.wellFormed_true _, by simp [Instr.row, opcodeTable, opcodeTableLow, opcodeTableAlu, opcodeTableHigh], selects_x rfl rfl⟩

theorem Laws.EncodesToRow.addI (x : Nibble) : Laws.EncodesToRow.Statement (.addI x) :=
  ⟨Instr.wellFormed_true _, by simp [Instr.row, opcodeTable, opcodeTableLow, opcodeTableAlu, opcodeTableHigh], selects_x rfl rfl⟩

theorem Laws.EncodesToRow.ldF (x : Nibble) : Laws.EncodesToRow.Statement (.ldF x) :=
  ⟨Instr.wellFormed_true _, by simp [Instr.row, opcodeTable, opcodeTableLow, opcodeTableAlu, opcodeTableHigh], selects_x rfl rfl⟩

theorem Laws.EncodesToRow.ldB (x : Nibble) : Laws.EncodesToRow.Statement (.ldB x) :=
  ⟨Instr.wellFormed_true _, by simp [Instr.row, opcodeTable, opcodeTableLow, opcodeTableAlu, opcodeTableHigh], selects_x rfl rfl⟩

theorem Laws.EncodesToRow.stRegs (x : Nibble) : Laws.EncodesToRow.Statement (.stRegs x) :=
  ⟨Instr.wellFormed_true _, by simp [Instr.row, opcodeTable, opcodeTableLow, opcodeTableAlu, opcodeTableHigh], selects_x rfl rfl⟩

theorem Laws.EncodesToRow.ldRegs (x : Nibble) : Laws.EncodesToRow.Statement (.ldRegs x) :=
  ⟨Instr.wellFormed_true _, by simp [Instr.row, opcodeTable, opcodeTableLow, opcodeTableAlu, opcodeTableHigh], selects_x rfl rfl⟩

end Sys2Proof
end

