-- ==== Sys2Proof/Tests/Slice0.lean ====
section
/-! SUPPORT. Tests: words written out bit by bit from spec 30_encoding and what they decode to, one or two steps per
instruction with results taken from 95_test_vectors (the vector is named before each test), and for each statement with
hypotheses a state that meets them. Random bytes are free, so no test expects one. -/

open Sys2Proof Sys2Proof.Machine

namespace Sys2Proof.Tests

/-! ### Helpers -/

/-- The fresh state of 95_test_vectors with a word at 0x200 and some registers set. -/
def fresh (w : Nat) (regs : List (Nibble × Byte)) : State :=
  regs.foldl (fun s p => s.setV p.1 p.2) (State.reset.withFetchWord 16 w)

/-- The state after an answer; the reset state if there is none. -/
def after : Result → State
  | .next s => s
  | .fault _ => State.reset
  | .refused _ => State.reset

/-- A state whose `SP` is `n`. -/
def atDepth (n : Fin 17) (s : State) : State := { s with sp := n }

/-- A state with `I` set and bytes stored there. -/
def withBytes (s : State) (a : Word) (bytes : List Byte) : State := (s.setI a).storeBytes a.toNat bytes

/-- A state with cells turned on. -/
def withCells (s : State) (cells : List Nat) : State :=
  cells.foldl (fun s k => { s with fb := s.fb ||| (1#2048 <<< k) }) s

/-- The bytes at `a`, `a + 1`, .... -/
def bytesAt (s : State) (a n : Nat) : List Byte := (List.range n).map (fun k => s.memRead (a + k))

/-- `V[0]`, ..., `V[n-1]`. -/
def firstRegs (s : State) (n : Nat) : List Byte := (List.range n).map (fun k => s.getV (BitVec.ofNat 4 k))

/-- The framebuffer with exactly these cells on. -/
def cellsOn (cells : List Nat) : BitVec 2048 := cells.foldl (fun b k => b ||| (1#2048 <<< k)) 0

/-! ### Well-formedness

No term of `Instr` is ill formed: the operand types have exactly the ranges of R71. Ill-formed WORDS are refused. -/

/-- T-E2, illegal words and their legal neighbours: one for each check of R76-R78. -/
theorem test_illegal_words :
    [0x0000, 0x00E1, 0x0120, 0x01E0, 0x5121, 0x8AB8, 0x8ABF, 0x9AB1, 0xE09F, 0xE1A2, 0xF000, 0xF175, 0xFFFF].all
      (fun w => !wordLegal (BitVec.ofNat 16 w) && (decode (BitVec.ofNat 16 w)).isNone) = true ∧
    [0x5120, 0x9AB0, 0x8ABE, 0xE09E, 0xE1A1, 0xF165, 0xFF65, 0x8FF7].all
      (fun w => wordLegal (BitVec.ofNat 16 w) && (decode (BitVec.ofNat 16 w)).isSome) = true := by decide

/-- R73: the operands at the ends of their ranges. -/
theorem test_well_formed : (Instr.drw 15 15 15).wellFormed = true ∧ (Instr.ldImm 0 0xFF).wellFormed = true ∧
    (Instr.jp 0xFFF).wellFormed = true ∧ Instr.cls.wellFormed = true := by decide

/-! ### Decoding (R74): op, then the fields from bit 11 down -/

theorem test_decode_control : decode 0b0000_0000_1110_1110#16 = some .ret ∧
    decode 0b0001_1010_1011_1100#16 = some (.jp 0xABC) ∧ decode 0b0010_0011_0000_0001#16 = some (.call 0x301) ∧
    decode 0b0011_1010_0111_1111#16 = some (.seImm 0xA 0x7F) ∧ decode 0b0100_1010_0111_1110#16 = some (.sneImm 0xA 0x7E) ∧
    decode 0b0101_0001_0010_0000#16 = some (.seReg 1 2) ∧ decode 0b1001_0001_0010_0000#16 = some (.sneReg 1 2) ∧
    decode 0b1011_1111_1111_1110#16 = some (.jpV0 0xFFE) := by decide

theorem test_decode_load_alu : decode 0b0110_0001_1010_1011#16 = some (.ldImm 1 0xAB) ∧
    decode 0b0111_0001_0000_0010#16 = some (.addImm 1 2) ∧ decode 0b1000_0001_0010_0000#16 = some (.ldReg 1 2) ∧
    decode 0b1000_0001_0010_0001#16 = some (.orReg 1 2) ∧ decode 0b1000_0001_0010_0010#16 = some (.andReg 1 2) ∧
    decode 0b1000_0001_0010_0011#16 = some (.xorReg 1 2) ∧ decode 0b1000_1010_1011_0100#16 = some (.addReg 0xA 0xB) ∧
    decode 0b1000_0001_0010_0101#16 = some (.subReg 1 2) ∧ decode 0b1000_0001_0010_0110#16 = some (.shr 1 2) ∧
    decode 0b1000_0001_0010_0111#16 = some (.subnReg 1 2) ∧ decode 0b1000_1111_0000_1110#16 = some (.shl 0xF 0) ∧
    decode 0b1100_0001_0000_1111#16 = some (.rnd 1 0x0F) := by decide

theorem test_decode_index_memory : decode 0b1010_0001_0010_0011#16 = some (.ldI 0x123) ∧
    decode 0b1111_0101_0001_1110#16 = some (.addI 5) ∧ decode 0b1111_0110_0010_1001#16 = some (.ldF 6) ∧
    decode 0b1111_0111_0011_0011#16 = some (.ldB 7) ∧ decode 0b1111_1000_0101_0101#16 = some (.stRegs 8) ∧
    decode 0b1111_1001_0110_0101#16 = some (.ldRegs 9) := by decide

theorem test_decode_display : decode 0b0000_0000_1110_0000#16 = some .cls ∧
    decode 0b1101_0001_0010_0101#16 = some (.drw 1 2 5) := by decide

theorem test_decode_keypad_timers : decode 0b1110_1010_1001_1110#16 = some (.skp 0xA) ∧
    decode 0b1110_1010_1010_0001#16 = some (.sknp 0xA) ∧ decode 0b1111_0001_0000_0111#16 = some (.ldVxDt 1) ∧
    decode 0b1111_0010_0000_1010#16 = some (.ldVxKey 2) ∧ decode 0b1111_0011_0001_0101#16 = some (.ldDtVx 3) ∧
    decode 0b1111_0100_0001_1000#16 = some (.ldStVx 4) := by decide

/-- T-E4, T-E1: the table's word is the value with the first byte high; bytes come high byte first. -/
theorem test_byte_order : decodeTableWord 16 0x1234 = some (.jp 0x234) ∧ decodeTableWord 16 0x5121 = none ∧
    encodeBytes (.drw 1 2 5) = [0xD1, 0x25] ∧ decodeBytes [0x12] = .error .tooShort := by
  refine ⟨?_, ?_, ?_, ?_⟩ <;> rfl

/-- T-E5: the fetch wraps at the top of memory, `PC` does not; T-E6: an odd `PC` is no fault. -/
theorem test_fetch_wraps :
    ((after (step { State.reset.storeBytes 0xFFF [0x60, 0x2A] with pc := 0xFFF })).getV 0 = 0x2A ∧
      (after (step { State.reset.storeBytes 0xFFF [0x60, 0x2A] with pc := 0xFFF })).pc = 0x1001) ∧
    (after (step { State.reset.storeBytes 0x201 [0x6A, 0x55] with pc := 0x201 })).getV 0xA = 0x55 := by decide

/-! ### Control transfer -/

/-- T-C1. -/
theorem test_jp : (after (step (fresh 0x1ABC []))).pc = 0xABC := by decide

/-- T-C4, the last free cell; T-X2, the full stack. -/
theorem test_call : ((after (step (atDepth 15 (fresh 0x2300 [])))).stack[15] = 0x202 ∧
    (after (step (atDepth 15 (fresh 0x2300 [])))).sp = 16 ∧ (after (step (atDepth 15 (fresh 0x2300 [])))).pc = 0x300) ∧
    step (atDepth 16 (fresh 0x2300 [])) = .fault .stackOverflow := by
  refine ⟨by decide, rfl⟩

/-- T-C5; T-X3. -/
theorem test_ret :
    ((after (step { fresh 0x00EE [] with sp := 2, stack := (State.reset.stack.set 0 0xABC).set 1 0x456 })).pc = 0x456 ∧
      (after (step { fresh 0x00EE [] with sp := 2, stack := (State.reset.stack.set 0 0xABC).set 1 0x456 })).sp = 1) ∧
    step (fresh 0x00EE []) = .fault .stackUnderflow := by
  refine ⟨by decide, rfl⟩

/-- T-C7, T-C8. -/
theorem test_seImm : (after (step (fresh 0x3A7F [(0xA, 0x7F)]))).pc = 0x204 ∧
    (after (step (fresh 0x3A7F [(0xA, 0x7E)]))).pc = 0x202 := by decide

/-- T-C9, T-C10. -/
theorem test_sneImm : (after (step (fresh 0x4A7F [(0xA, 0x7F)]))).pc = 0x202 ∧
    (after (step (fresh 0x4A7F [(0xA, 0x7E)]))).pc = 0x204 := by decide

/-- T-C11, T-C12. -/
theorem test_seReg : (after (step (fresh 0x5120 [(1, 0x33), (2, 0x33)]))).pc = 0x204 ∧
    (after (step (fresh 0x5120 [(1, 0x33), (2, 0x34)]))).pc = 0x202 := by decide

/-- T-C14, T-C15. -/
theorem test_sneReg : (after (step (fresh 0x9120 [(1, 0x33), (2, 0x33)]))).pc = 0x202 ∧
    (after (step (fresh 0x9120 [(1, 0x33), (2, 0x34)]))).pc = 0x204 := by decide

/-- T-C18. -/
theorem test_jpV0 : (after (step (fresh 0xBFFF [(0, 0xFF)]))).pc = 0x10FE := by decide

/-- T-C19: `PC` wraps mod 65536. -/
theorem test_skip_wraps :
    (after (step { (fresh 0x1200 [(0xA, 0x7F)]).storeBytes 0xFFE [0x3A, 0x7F] with pc := 0xFFFE })).pc = 0x0002 := by
  decide

/-! ### Load, arithmetic, logic, shifts, random -/

/-- T-A1, T-A33. -/
theorem test_ldImm : (after (step (fresh 0x61AB []))).getV 1 = 0xAB ∧ (after (step (fresh 0x6F07 []))).getV 15 = 7 := by
  decide

/-- T-A2. -/
theorem test_addImm : (after (step (fresh 0x7101 [(1, 0xFF), (15, 0x5A)]))).getV 1 = 0 ∧
    (after (step (fresh 0x7101 [(1, 0xFF), (15, 0x5A)]))).getV 15 = 0x5A := by decide

/-- T-A4. -/
theorem test_ldReg : (after (step (fresh 0x8120 [(1, 0x11), (2, 0x22)]))).getV 1 = 0x22 := by decide

/-- T-A5. -/
theorem test_orReg : (after (step (fresh 0x8121 [(1, 0xF0), (2, 0x3C), (15, 0x77)]))).getV 1 = 0xFC ∧
    (after (step (fresh 0x8121 [(1, 0xF0), (2, 0x3C), (15, 0x77)]))).getV 15 = 0x77 := by decide

/-- T-A6. -/
theorem test_andReg : (after (step (fresh 0x8122 [(1, 0xF0), (2, 0x3C), (15, 0x77)]))).getV 1 = 0x30 ∧
    (after (step (fresh 0x8122 [(1, 0xF0), (2, 0x3C), (15, 0x77)]))).getV 15 = 0x77 := by decide

/-- T-A7. -/
theorem test_xorReg : (after (step (fresh 0x8123 [(1, 0xF0), (2, 0x3C), (15, 0x77)]))).getV 1 = 0xCC ∧
    (after (step (fresh 0x8123 [(1, 0xF0), (2, 0x3C), (15, 0x77)]))).getV 15 = 0x77 := by decide

/-- T-A9. -/
theorem test_addReg : (after (step (fresh 0x8124 [(1, 0x80), (2, 0x7F), (15, 1)]))).getV 1 = 0xFF ∧
    (after (step (fresh 0x8124 [(1, 0x80), (2, 0x7F), (15, 1)]))).getV 15 = 0 := by decide

/-- T-A19, T-A23: `VF` as destination and as source. -/
theorem test_addReg_vf : (after (step (fresh 0x8F14 [(15, 200), (1, 100)]))).getV 15 = 0x2C ∧
    (after (step (fresh 0x80F4 [(0, 200), (15, 100)]))).getV 0 = 0x2C ∧
    (after (step (fresh 0x80F4 [(0, 200), (15, 100)]))).getV 15 = 1 := by decide

/-- T-A11, T-A12: equal operands give 0. -/
theorem test_subReg : (after (step (fresh 0x8125 [(1, 0x10), (2, 0x20)]))).getV 1 = 0xF0 ∧
    (after (step (fresh 0x8125 [(1, 0x10), (2, 0x20)]))).getV 15 = 0 ∧
    (after (step (fresh 0x8125 [(1, 0x33), (2, 0x33), (15, 1)]))).getV 15 = 0 := by decide

/-- T-A24. -/
theorem test_subReg_vf : (after (step (fresh 0x80F5 [(0, 5), (15, 9)]))).getV 0 = 0xFC ∧
    (after (step (fresh 0x80F5 [(0, 5), (15, 9)]))).getV 15 = 0 := by decide

/-- T-A13; T-A21 with `VF` = 2. -/
theorem test_shr : (after (step (fresh 0x8126 [(1, 3), (2, 0x99)]))).getV 1 = 1 ∧
    (after (step (fresh 0x8126 [(1, 3), (2, 0x99)]))).getV 15 = 1 ∧
    (after (step (fresh 0x8F06 [(15, 2)]))).getV 15 = 1 := by decide

/-- T-A15, T-A25. -/
theorem test_subnReg : (after (step (fresh 0x8127 [(1, 0x10), (2, 0x20)]))).getV 1 = 0x10 ∧
    (after (step (fresh 0x8127 [(1, 0x10), (2, 0x20)]))).getV 15 = 1 ∧
    (after (step (fresh 0x80F7 [(0, 5), (15, 9)]))).getV 0 = 4 := by decide

/-- T-A18, T-A22. -/
theorem test_shl : (after (step (fresh 0x812E [(1, 0x81), (2, 0x55)]))).getV 1 = 2 ∧
    (after (step (fresh 0x812E [(1, 0x81), (2, 0x55)]))).getV 15 = 1 ∧
    (after (step (fresh 0x8F0E [(15, 0x81)]))).getV 15 = 2 := by decide

/-- T-A30: masked with 0, whatever the random byte. -/
theorem test_rnd : (after (step (fresh 0xC100 [(1, 7)]))).getV 1 = 0 := by
  show Config.rnd 0 &&& 0#8 = 0
  simp

/-! ### Index register and memory -/

/-- T-M1. -/
theorem test_ldI : (after (step ((fresh 0xA123 []).setI 0xFFFF))).i = 0x123 := by decide

/-- T-M2, T-M3. -/
theorem test_addI : (after (step ((fresh 0xF21E [(2, 0x20)]).setI 0x0FF0))).i = 0x1010 ∧
    (after (step ((fresh 0xF21E [(2, 1)]).setI 0xFFFF))).i = 0 := by decide

/-- T-M4, T-M5. -/
theorem test_ldF : (after (step (fresh 0xF029 [(0, 0x0F)]))).i = 0x009B ∧
    (after (step (fresh 0xF029 [(0, 0xFF)]))).i = 0x054B := by decide

/-- T-M8: the three digits wrap at the top of memory. -/
theorem test_ldB : bytesAt (after (step ((fresh 0xF033 [(0, 123)]).setI 0x0FFF))) 0xFFF 3 = [1, 2, 3] := by decide

/-- T-M9. -/
theorem test_stRegs :
    bytesAt (after (step ((fresh 0xF255 [(0, 0x11), (1, 0x22), (2, 0x33), (3, 0x44)]).setI 0x400))) 0x400 4 =
      [0x11, 0x22, 0x33, 0] := by decide

/-- T-M12, T-M15: bits 15..12 of `I` are ignored at access. -/
theorem test_ldRegs : firstRegs (after (step (withBytes (fresh 0xF265 [(3, 0x77)]) 0x300 [2, 5, 4, 9]))) 4 =
      [2, 5, 4, 0x77] ∧
    firstRegs (after (step (withBytes (fresh 0xF265 []) 0x1300 [1, 2, 3]))) 3 = [1, 2, 3] := by decide

/-- T-M13: the font, all sixteen registers. -/
theorem test_ldRegs_font : firstRegs (after (step ((fresh 0xFF65 []).setI 0x050))) 16 =
    [0xF0, 0x90, 0x90, 0x90, 0xF0, 0x20, 0x60, 0x20, 0x20, 0x70, 0xF0, 0x10, 0xF0, 0x80, 0xF0, 0xF0] := by decide

/-! ### Display -/

/-- T-D8. -/
theorem test_cls : (after (step (withCells (fresh 0x00E0 []) [100]))).fb = 0 ∧
    (after (step (withCells (fresh 0x00E0 []) [100]))).redraw = true := by decide +kernel

/-- T-D1: glyph 0 at column 5, row 2. -/
theorem test_drw_glyph : (after (step ((fresh 0xD125 [(1, 5), (2, 2)]).setI 0x050))).fb =
    cellsOn [133, 134, 135, 136, 197, 200, 261, 264, 325, 328, 389, 390, 391, 392] := by decide +kernel

/-- T-D13: a sprite that wraps by columns and turns two cells off. -/
theorem test_drw_wraps :
    (after (step (withCells (withBytes (fresh 0xD121 [(1, 60)]) 0x300 [0x81]) [60, 3]))).fb = 0 ∧
    (after (step (withCells (withBytes (fresh 0xD121 [(1, 60)]) 0x300 [0x81]) [60, 3]))).getV 15 = 1 := by decide +kernel

/-! ### Keypad and timers -/

/-- T-K3b: the low four bits name the key. -/
theorem test_skp : (after (step ((fresh 0xE19E [(1, 0x17)]).keyWrite 7 true))).pc = 0x204 ∧
    (after (step (fresh 0xE19E [(1, 0x07)]))).pc = 0x202 := by decide

/-- T-K3. -/
theorem test_sknp : (after (step ((fresh 0xE1A1 [(1, 7)]).keyWrite 7 true))).pc = 0x202 ∧
    (after (step (fresh 0xE1A1 [(1, 7)]))).pc = 0x204 := by decide

/-- T-K5: the lowest of three keys. -/
theorem test_ldVxKey :
    (after (step ((((fresh 0xF50A []).keyWrite 9 true).keyWrite 4 true).keyWrite 12 true))).getV 5 = 4 := by decide

/-- T-K4, its first step: no key, only the timers run. -/
theorem test_ldVxKey_waits :
    step { fresh 0xF50A [] with dt := 3, st := 1 } = .next { fresh 0xF50A [] with dt := 2, st := 0 } := rfl

/-- T-K7. -/
theorem test_ldVxDt : (after (step { fresh 0xF107 [] with dt := 0x2A })).getV 1 = 0x2A ∧
    (after (step { fresh 0xF107 [] with dt := 0x2A })).dt = 0x29 := by decide

/-- T-K8, T-K10. -/
theorem test_ldDtVx : (after (step (fresh 0xF115 [(1, 3)]))).dt = 2 ∧
    (after (step { fresh 0xF115 [] with dt := 9 })).dt = 0 := by decide

/-- T-K9. -/
theorem test_ldStVx : (after (step (fresh 0xF118 [(1, 1)]))).st = 0 ∧
    (after (step (fresh 0xF118 [(1, 9)]))).st = 8 := by decide

/-! ### The host's operations -/

/-- T-R2, in part: what `reset` keeps and clears. -/
theorem test_hostReset :
    bytesAt (((State.reset.storeBytes 0x050 [0]).storeBytes 0x1FF [0x77, 0x12]).storeBytes 0xFFF [0x34]).hostReset
      0x1FF 2 = [0x77, 0] ∧
    (((State.reset.storeBytes 0x050 [0]).storeBytes 0x1FF [0x77, 0x12]).storeBytes 0xFFF [0x34]).hostReset.memRead
      0x050 = 0 := by decide

/-- T-R4: a shorter program over a longer one. -/
theorem test_load : bytesAt
    (match State.reset.load [1, 2, 3, 4] with
      | .ok s => (match s.load [9, 9] with | .ok t => t | .error _ => State.reset)
      | .error _ => State.reset) 0x200 4 = [9, 9, 3, 4] := by decide

/-- T-X6, T-X9: the results of an empty and of a one-byte load, with R162's numbers. -/
theorem test_load_result : State.reset.hostLoad [] = (.loadError, State.reset) ∧
    (State.reset.hostLoad []).1.code = 1 ∧ (State.reset.hostLoad [0x12]).1.code = 0 ∧
    (State.reset.hostLoad [0x12]).2.memRead 0x200 = 0x12 := ⟨rfl, rfl, rfl, by decide⟩

/-! ### Witnesses: for each statement with hypotheses, states and operands that meet them, at the ends of their ranges -/

/-- EncodeOfDecodeIsTheWord, DecodeSelectsTheTableRow: a row of the table, and a word it selects that decodes. -/
theorem test_witness_decode : (⟨.xy, 0x8006#16⟩ : Row) ∈ opcodeTable ∧ (⟨.xy, 0x8006#16⟩ : Row).selects 0x8FF6#16 = true ∧
    decode 0x8FF6#16 = some (.shr 15 15) := by decide

/-- FetchReadsBigEndian: the word at the top of memory. -/
theorem test_witness_fetch : ∃ s : State, s.pc = 0xFFFF ∧ s.memRead (s.pc.toNat % 4096) = 0x12 ∧
    s.memRead ((s.pc.toNat + 1) % 4096) = 0x34 :=
  ⟨{ State.reset.storeBytes 0xFFF [0x12, 0x34] with pc := 0xFFFF }, rfl, by decide, by decide⟩

/-- StepRunsTheDecodedInstruction, both clauses: the bytes decode, and the instruction completes or raises. -/
theorem test_witness_step :
    (decodeBytes [(fresh 0x2300 []).memRead 0x200, (fresh 0x2300 []).memRead 0x201] = .ok (.call 0x300, [])) ∧
    (∃ t, exec (.call 0x300) (fresh 0x2300 []) = .next t) ∧
    exec (.call 0x300) (atDepth 16 (fresh 0x2300 [])) = .fault .stackOverflow := ⟨rfl, ⟨_, rfl⟩, rfl⟩

/-- TickDecrementsAndSaturates, RedrawIsSetByClearAndDrawAlone, OnlyRandomTakesAByte, TimerWrittenAndTickedInOneStep and
the other statements about a completed step. -/
theorem test_witness_completed_step :
    (decode (fresh 0xF115 []).fetch = some (.ldDtVx 1) ∧ ∃ t, step (fresh 0xF115 []) = .next t) ∧
    (decode (fresh 0xF118 []).fetch = some (.ldStVx 1) ∧ ∃ t, step (fresh 0xF118 []) = .next t) ∧
    (decode (fresh 0xFF07 []).fetch = some (.ldVxDt 15) ∧ ∃ t, step (fresh 0xFF07 []) = .next t) ∧
    (decode (fresh 0x00E0 []).fetch = some .cls ∧ ∃ t, step (fresh 0x00E0 []) = .next t) ∧
    (decode (fresh 0xC1FF []).fetch = some (.rnd 1 0xFF) ∧ ∃ t, step (fresh 0xC1FF []) = .next t) :=
  ⟨⟨rfl, _, rfl⟩, ⟨rfl, _, rfl⟩, ⟨rfl, _, rfl⟩, ⟨rfl, _, rfl⟩, rfl, _, rfl⟩

/-- StepEndsInExactlyFourWays, FatalStepChangesNothing: each of the four ends. -/
theorem test_witness_four_ways : step State.reset = .fault (.decodeError 0) ∧
    step (atDepth 16 (fresh 0x2300 [])) = .fault .stackOverflow ∧ step (fresh 0x00EE []) = .fault .stackUnderflow ∧
    (∃ t, step (fresh 0x1200 []) = .next t) := ⟨rfl, rfl, rfl, _, rfl⟩

/-- IllegalWordRaisesDecodeError: T-X1 and T-X4. -/
theorem test_witness_illegal : (∀ r ∈ opcodeTable, State.reset.fetch &&& r.format.mask ≠ r.pattern) ∧
    (∀ r ∈ opcodeTable, (fresh 0x5121 []).fetch &&& r.format.mask ≠ r.pattern) := by decide

/-- PcFollowsTheTable, RegistersChangeOnlyWhereNamed and the rules on what an instruction may write: for each kind of
instruction one that completes. -/
theorem test_witness_exec : (∃ t, exec (.ldRegs 15) State.reset = .next t) ∧ (∃ t, exec (.addReg 15 15) State.reset = .next t) ∧
    (∃ t, exec (.ldI 0xFFF) State.reset = .next t ∧ (Instr.ldI 0xFFF).usesStack = false ∧
      (Instr.ldI 0xFFF).stores = false ∧ (Instr.ldI 0xFFF).paints = false) ∧
    (∃ t, exec (.stRegs 15) State.reset = .next t ∧ (Instr.stRegs 15).writesI = false) :=
  ⟨⟨_, rfl⟩, ⟨_, rfl⟩, ⟨_, rfl, rfl, rfl, rfl⟩, _, rfl, rfl⟩

/-- StepKeepsMemoryCanonical, HostOperationsKeepMemoryCanonical: memory with a cell listed, and a step that stores. -/
theorem test_witness_memory : (fresh 0xFF55 []).mem.wf ∧ (∃ t, step (fresh 0xFF55 []) = .next t) ∧
    (∃ t, (fresh 0xFF55 []).load [1] = .ok t) := ⟨by decide, ⟨_, rfl⟩, _, rfl⟩

/-- HighAddressBitsAreUnobservable: two different states that are alike. -/
theorem test_witness_aliased : ∃ s t : State, AliasedStates s t ∧ s ≠ t :=
  ⟨State.reset, { State.reset with pc := 0xF200, i := 0x1000, stack := State.reset.stack.set 3 0x8000 },
    ⟨by unfold SameAddress; decide, by unfold SameAddress; decide, by unfold SameAddress; decide, rfl⟩, fun h => absurd (congrArg State.pc h) (by decide)⟩

/-- SoundTimerAndRedrawAreNeverRead: two different states that are alike. -/
theorem test_witness_outputs : ∃ s t : State, SameButOutputs s t ∧ s ≠ t :=
  ⟨State.reset, { State.reset with st := 9, redraw := true }, rfl, fun h => absurd (congrArg State.st h) (by decide)⟩

/-- StoredInstructionIsFetchedNext: T-M14, and the last two registers of a full block at the top of memory. -/
theorem test_witness_stored : ∃ (s u : State), (decode s.fetch = some (.stRegs 1) ∧ 0 < (1 : Nibble).toNat ∧
      s.indexed 0 % 4096 = (s.pc.toNat + 2) % 4096) ∧
    (decode u.fetch = some (.stRegs 15) ∧ 14 < (15 : Nibble).toNat ∧ u.indexed 14 % 4096 = (u.pc.toNat + 2) % 4096) :=
  ⟨(fresh 0xF155 []).setI 0x202, (fresh 0xFF55 []).setI 0xF1F4, ⟨rfl, by decide, by decide⟩, rfl, by decide, by decide⟩

/-- CallPushesTheReturnAddress, ReturnPopsIntoPc, CallThenReturnRoundTrip: the depths at the ends of each clause, and the
state the call itself leaves. -/
theorem test_witness_stack : (atDepth 0 State.reset).sp ≠ 16 ∧ (atDepth 15 State.reset).sp ≠ 16 ∧
    (atDepth 16 State.reset).sp = 16 ∧ (atDepth 1 State.reset).sp ≠ 0 ∧ (atDepth 16 State.reset).sp ≠ 0 ∧
    (atDepth 0 State.reset).sp = 0 ∧ SameStack (atDepth 1 State.reset) (atDepth 1 State.reset) :=
  ⟨by decide, by decide, rfl, by decide, by decide, rfl, rfl, rfl⟩

/-- AddSetsCarry, SubtractSetsGreater, ShiftsMoveOneBit, FlagSettersNamingVF: registers other than `VF`, equal or not. -/
theorem test_witness_flags : (14 : Nibble) ≠ 15 ∧ (0 : Nibble) ≠ 15 ∧ ((fresh 0 [(15, 0xFF), (14, 1)]).getV 15).toNat = 255 ∧
    ((fresh 0 [(15, 0xFF), (14, 1)]).getV 14).toNat = 1 ∧ ((fresh 0 [(15, 0xFF), (14, 1)]).getV 0).toNat = 0 := by decide

/-- BcdStoresThreeDigits, BlockStoreWritesRegisters, BlockLoadReadsMemory: addresses just outside a block that wraps, and
registers on both sides of the bound. -/
theorem test_witness_blocks : (∀ k < 3, 0x002 % 4096 ≠ (State.reset.setI 0xFFF).indexed k % 4096) ∧
    (∀ k ≤ (15 : Nibble).toNat, 0x00F % 4096 ≠ (State.reset.setI 0xFFF).indexed k % 4096) ∧
    (15 : Nibble).toNat ≤ (15 : Nibble).toNat ∧ (0 : Nibble).toNat ≤ (0 : Nibble).toNat ∧ (0 : Nibble).toNat < (1 : Nibble).toNat := by
  decide

/-- DrawTogglesTheSpritesCells, CollisionIsACellTurnedOff: a covered cell that was on (T-D7). -/
theorem test_witness_draw_hit :
    (withCells (withBytes State.reset 0x300 [0xC0]) [0]).spriteCovers 1 2 1 0 = true ∧
    (withCells (withBytes State.reset 0x300 [0xC0]) [0]).cell 0 = true := by decide +kernel

/-- DrawTogglesTheSpritesCells, CollisionIsACellTurnedOff: no covered cell, by no rows (T-D6) and by a blank row (T-D9). -/
theorem test_witness_draw_clear : (∀ k < 2048, State.reset.spriteCovers 1 2 0 k = true → State.reset.cell k = false) ∧
    (∀ row < (1 : Nibble).toNat, State.reset.memRead (State.reset.indexed row) = 0) ∧
    (∃ t, exec (.drw 1 2 0) State.reset = .next t) := by
  refine ⟨fun k _ h => ?_, by decide, _, rfl⟩
  simp [State.spriteCovers] at h

/-- The state a draw leaves is one between two draws of the same sprite. -/
theorem between_draws (s : State) : ∃ t u : State, exec (.drw 1 2 5) s = .next t ∧ u.fb = t.fb ∧
    u.getV 1 = s.getV 1 ∧ u.getV 2 = s.getV 2 ∧ u.i = s.i ∧ SameMemory s u :=
  ⟨_, _, rfl, rfl, by simp; rfl, by simp; rfl, rfl, fun _ => rfl⟩

/-- DrawTwiceRestoresTheDisplay. -/
theorem test_witness_draw_twice : ∃ t u : State, exec (.drw 1 2 5) (State.reset.setI 0x050) = .next t ∧ u.fb = t.fb ∧
    u.getV 1 = (State.reset.setI 0x050).getV 1 ∧ u.getV 2 = (State.reset.setI 0x050).getV 2 ∧
    u.i = (State.reset.setI 0x050).i ∧ SameMemory (State.reset.setI 0x050) u := between_draws (State.reset.setI 0x050)

/-- DrawTwiceRestoresTheDisplay, its last clause: glyph 0 covers a cell that is off (T-D2). -/
theorem test_witness_draw_again : (State.reset.setI 0x050).spriteCovers 1 2 5 0 = true ∧
    (State.reset.setI 0x050).cell 0 = false := by decide +kernel

/-- The bounds alone: bit numbers (BitwiseForms, RandomByteIsMasked), addresses (HostResetState), two keys
(KeyWriteAndFrameConsume), a register that is not named (RegistersChangeOnlyWhereNamed). -/
theorem test_witness_bounds : (0 < 8 ∧ 7 < 8) ∧ (0x1FF < 4096 ∧ 0x200 < 4096 ∧ 0xFFF < 4096) ∧ (0 : Nibble) ≠ 15 ∧
    (14 : Nibble) ∉ (Instr.addReg 13 14).regsWritten ∧ (8 : Nibble) ∉ (Instr.ldRegs 7).regsWritten := by decide

/-- KeySkipsTestTheLowNibble: the last key, named by a byte above 15. -/
theorem test_witness_key_index : (15 : Nibble).toNat = ((fresh 0 [(1, 0xFF)]).getV 1).toNat % 16 ∧
    (0 : Nibble).toNat = ((fresh 0 [(1, 0x10)]).getV 1).toNat % 16 := by decide

/-- KeyWaitTakesTheLowestKey: no key; the last key alone; the first key. -/
theorem test_witness_key_wait : (∀ k, State.reset.key k = false) ∧
    ((State.reset.keyWrite 15 true).key 15 = true ∧
      ∀ j : Nibble, j.toNat < (15 : Nibble).toNat → (State.reset.keyWrite 15 true).key j = false) ∧
    ((State.reset.keyWrite 0 true).key 0 = true ∧
      ∀ j : Nibble, j.toNat < (0 : Nibble).toNat → (State.reset.keyWrite 0 true).key j = false) := by decide

/-- ConstructionState: the first and the last address outside the font. -/
theorem test_witness_construction : (0x04F < 4096 ∧ (0x04F < 0x050 ∨ 0x0A0 ≤ 0x04F)) ∧
    (0x0A0 < 4096 ∧ (0x0A0 < 0x050 ∨ 0x0A0 ≤ 0x0A0)) := by decide

/-- ResetIsConstructionWithTheDefaultFont. -/
theorem test_witness_font : ∃ font : Vector Byte 80, font.toList = fontBytes :=
  ⟨⟨fontBytes.toArray, rfl⟩, rfl⟩

/-- LoadCopiesTheProgram: the lengths at the ends of each clause (T-X6 to T-X9). -/
theorem test_witness_load : ([] : List Byte).length = 0 ∧ 3584 < (List.replicate 3585 (0 : Byte)).length ∧
    (0 < [(0x12 : Byte)].length ∧ [(0x12 : Byte)].length ≤ 3584) ∧
    (0 < (List.replicate 3584 (0xAB : Byte)).length ∧ (List.replicate 3584 (0xAB : Byte)).length ≤ 3584) := by
  simp only [List.length_replicate]
  decide

/-- SelfJumpOnlyRunsTheTimersDown: T-C2. -/
theorem test_witness_self_jump : (fresh 0x1200 []).SelfJump := ⟨0x200, rfl, rfl⟩

end Sys2Proof.Tests
end

/-! ## The state's own rules (spec 10_state): proofs -/

/-! ### What an instruction that completes leaves unchanged -/

section
namespace Sys2Proof.Machine

/-- An instruction wrote at most what the tables of `Instr` (`regsWritten`, `stores`, `writesI`, `usesStack`, `paints`,
`takesRandom`) say; `PC` and the timers are left open. -/
structure Footprint (i : Instr) (s t : State) : Prop where
  regs : SameRegsBut i.regsWritten s t
  mem : i.stores = false → t.mem = s.mem
  index : i.writesI = false → t.i = s.i
  stack : i.usesStack = false → SameStack s t
  fb : i.paints = false → t.fb = s.fb
  redraw : t.redraw = (s.redraw || i.paints)
  keys : t.keys = s.keys
  draws : t.draws = s.draws + (if i.takesRandom then 1 else 0)

variable {i : Instr} {s t : State}

/-! #### Reads that depend on one field -/

theorem State.key_of_keys (h : t.keys = s.keys) (k : Nibble) : t.key k = s.key k := by simp [State.key, h]

theorem State.cell_of_fb (h : t.fb = s.fb) (k : Nat) : t.cell k = s.cell k := by simp [State.cell, h]

/-! #### One footprint per shape of next state -/

/-- For the instructions that write no item but registers, `PC` and timers. -/
theorem Footprint.of_regs_pc_timers (hp : i.paints = false) (hr : i.takesRandom = false)
    (hv : SameRegsBut i.regsWritten s t) (ht : t = { s with v := t.v, pc := t.pc, dt := t.dt, st := t.st }) :
    Footprint i s t where
  regs := hv
  mem _ := by rw [ht]
  index _ := by rw [ht]
  stack _ := by rw [ht]; exact ⟨rfl, rfl⟩
  fb _ := by rw [ht]
  redraw := by rw [ht, hp, Bool.or_false]
  keys := by rw [ht]
  draws := by rw [ht, hr]; rfl

theorem Footprint.jump {w : Word} (hp : i.paints = false) (hr : i.takesRandom = false) : Footprint i s (s.jump w) :=
  .of_regs_pc_timers hp hr (fun _ _ => rfl) rfl

theorem Footprint.skipIf {c : Bool} (hp : i.paints = false) (hr : i.takesRandom = false) :
    Footprint i s (s.skipIf c) :=
  .of_regs_pc_timers hp hr (fun _ _ => rfl) rfl

theorem Footprint.setV_advance {x : Nibble} {b : Byte} (hp : i.paints = false) (hr : i.takesRandom = false)
    (hx : i.regsWritten = [x]) : Footprint i s (s.setV x b).advance := by
  refine .of_regs_pc_timers hp hr (fun r hn => ?_) rfl
  have hrx : r ≠ x := by simpa [hx] using hn
  rw [State.getV_advance, State.getV_setV, if_neg hrx]

theorem Footprint.setFlagThenResult_advance {x : Nibble} {f b : Byte} (hp : i.paints = false)
    (hr : i.takesRandom = false) (hx : i.regsWritten = [15, x]) :
    Footprint i s (s.setFlagThenResult x f b).advance := by
  refine .of_regs_pc_timers hp hr (fun r hn => ?_) rfl
  obtain ⟨hr15, hrx⟩ : r ≠ 15 ∧ r ≠ x := by simpa [hx] using hn
  rw [State.getV_advance, State.getV_setFlagThenResult, if_neg hrx, if_neg hr15]

theorem Footprint.setI_advance {w : Word} (hp : i.paints = false) (hr : i.takesRandom = false)
    (hi : i.writesI = true) : Footprint i s (s.setI w).advance where
  regs _ _ := rfl
  mem _ := rfl
  index hn := absurd hi (by simp [hn])
  stack _ := ⟨rfl, rfl⟩
  fb _ := rfl
  redraw := by simp [hp]
  keys := rfl
  draws := by simp [hr]

theorem Footprint.storeBytes_advance {a : Nat} {bytes : List Byte} (hp : i.paints = false)
    (hr : i.takesRandom = false) (hm : i.stores = true) : Footprint i s (s.storeBytes a bytes).advance where
  regs _ _ := by simp
  mem hn := absurd hm (by simp [hn])
  index _ := by simp
  stack _ := by simp [SameStack]
  fb _ := by simp
  redraw := by simp [hp]
  keys := by simp
  draws := by simp [hr]

theorem footprint_cls : Footprint .cls s { s with fb := 0, redraw := true }.advance where
  regs _ _ := rfl
  mem _ := rfl
  index _ := rfl
  stack _ := ⟨rfl, rfl⟩
  fb hn := nomatch hn
  redraw := (Bool.or_true _).symm
  keys := rfl
  draws := rfl

theorem footprint_drw {x y n : Nibble} {cells : BitVec 2048} {f : Byte} :
    Footprint (.drw x y n) s ({ s with fb := cells, redraw := true }.setVF f).advance where
  regs r hn := by
    have hr : r ≠ 15 := by simpa [Instr.regsWritten] using hn
    rw [State.getV_advance, State.getV_setVF, if_neg hr]
    rfl
  mem _ := rfl
  index _ := rfl
  stack _ := ⟨rfl, rfl⟩
  fb hn := nomatch hn
  redraw := (Bool.or_true _).symm
  keys := rfl
  draws := rfl

theorem footprint_rnd {x : Nibble} {kk b : Byte} :
    Footprint (.rnd x kk) s (({ s with draws := s.draws + 1 } : State).setV x b).advance where
  regs r hn := by
    have hr : r ≠ x := by simpa [Instr.regsWritten] using hn
    rw [State.getV_advance, State.getV_setV, if_neg hr]
    rfl
  mem _ := rfl
  index _ := rfl
  stack _ := ⟨rfl, rfl⟩
  fb _ := rfl
  redraw := (Bool.or_false _).symm
  keys := rfl
  draws := rfl

/-- `2nnn` and `00EE`, which alone move the stack. -/
theorem Footprint.of_stack_pc (hp : i.paints = false) (hr : i.takesRandom = false) (hu : i.usesStack = true)
    (ht : t = { s with pc := t.pc, stack := t.stack, sp := t.sp }) : Footprint i s t where
  regs := by rw [ht]; exact fun _ _ => rfl
  mem _ := by rw [ht]
  index _ := by rw [ht]
  stack hn := absurd hu (by simp [hn])
  fb _ := by rw [ht]
  redraw := by rw [ht, hp, Bool.or_false]
  keys := by rw [ht]
  draws := by rw [ht, hr]; rfl

/-! #### The instructions with more than one ending, and the block load -/

theorem footprint_ret (h : exec .ret s = .next t) : Footprint .ret s t := by
  by_cases hsp : s.sp = 0
  · rw [exec_ret_empty s hsp] at h
    cases h
  · obtain ⟨_, he⟩ := exec_ret_some s hsp
    obtain rfl := Host.Outcome.next.inj (he.symm.trans h)
    exact .of_stack_pc rfl rfl rfl rfl

theorem footprint_call {nnn : Addr12} (h : exec (.call nnn) s = .next t) : Footprint (.call nnn) s t := by
  by_cases hsp : s.sp = 16
  · rw [exec_call_full s nnn hsp] at h
    cases h
  · obtain ⟨_, he⟩ := exec_call_room s nnn hsp
    obtain rfl := Host.Outcome.next.inj (he.symm.trans h)
    exact .of_stack_pc rfl rfl rfl rfl

theorem footprint_ldVxKey {x : Nibble} (h : exec (.ldVxKey x) s = .next t) : Footprint (.ldVxKey x) s t := by
  cases hk : s.lowestKey with
  | none =>
    obtain rfl := Host.Outcome.next.inj ((exec_ldVxKey_none s x hk).symm.trans h)
    exact .of_regs_pc_timers rfl rfl (fun _ _ => rfl) rfl
  | some k =>
    obtain rfl := Host.Outcome.next.inj ((exec_ldVxKey_some s x hk).symm.trans h)
    exact .setV_advance rfl rfl rfl

theorem footprint_ldRegs {x : Nibble} {a : Nat} : Footprint (.ldRegs x) s (s.loadBlock a x).advance := by
  refine .of_regs_pc_timers rfl rfl (fun r hn => ?_) (by rw [State.loadBlock_eq]; rfl)
  have hrx : ¬ r.toNat ≤ x.toNat := fun hle =>
    hn (List.mem_map.2 ⟨r.toNat, List.mem_range.2 (Nat.lt_succ_of_le hle), by simp⟩)
  rw [State.getV_advance, State.getV_loadBlock, if_neg hrx]

/-! #### Every instruction, and the step -/

/-- R93: an instruction that completes writes what its row of the tables names, and nothing else. -/
theorem exec_footprint (h : exec i s = .next t) : Footprint i s t := by
  cases i with
  | ret => exact footprint_ret h
  | call nnn => exact footprint_call h
  | ldVxKey x => exact footprint_ldVxKey h
  | cls => obtain rfl := Host.Outcome.next.inj h; exact footprint_cls
  | drw x y n => obtain rfl := Host.Outcome.next.inj h; exact footprint_drw
  | rnd x kk => obtain rfl := Host.Outcome.next.inj h; exact footprint_rnd
  | ldRegs x => obtain rfl := Host.Outcome.next.inj h; exact footprint_ldRegs
  | jp nnn | jpV0 nnn => obtain rfl := Host.Outcome.next.inj h; exact .jump rfl rfl
  | seImm x kk | sneImm x kk | seReg x y | sneReg x y | skp x | sknp x =>
    obtain rfl := Host.Outcome.next.inj h; exact .skipIf rfl rfl
  | ldImm x kk | addImm x kk | ldReg x y | orReg x y | andReg x y | xorReg x y | ldVxDt x =>
    obtain rfl := Host.Outcome.next.inj h; exact .setV_advance rfl rfl rfl
  | addReg x y | subReg x y | shr x y | subnReg x y | shl x y =>
    obtain rfl := Host.Outcome.next.inj h; exact .setFlagThenResult_advance rfl rfl rfl
  | ldI nnn | addI x | ldF x => obtain rfl := Host.Outcome.next.inj h; exact .setI_advance rfl rfl rfl
  | ldB x | stRegs x => obtain rfl := Host.Outcome.next.inj h; exact .storeBytes_advance rfl rfl rfl
  | ldDtVx x | ldStVx x =>
    obtain rfl := Host.Outcome.next.inj h; exact .of_regs_pc_timers rfl rfl (fun _ _ => rfl) rfl

/-- The instruction a completed step executed is the one its word decodes to, and its footprint reaches up to the tick. -/
theorem step_footprint (hd : decode s.fetch = some i) (h : step s = .next t) : ∃ u, Footprint i s u ∧ t = u.tick := by
  obtain ⟨j, u, hj, he, ht⟩ := (step_next_iff s t).1 h
  obtain rfl : i = j := Option.some.inj (hd.symm.trans hj)
  exact ⟨u, exec_footprint he, ht⟩

/-! #### The statements -/

/-- Settles O16: the registers of the footprint. -/
theorem registersChangeOnlyWhereNamed : Obligations.RegistersChangeOnlyWhereNamed :=
  fun _ _ _ h => (exec_footprint h).regs

/-- Settles O17: no footprint names `KEY`, and the tick keeps it. -/
theorem noInstructionWritesTheKeypad : Obligations.NoInstructionWritesTheKeypad := by
  intro s t h
  obtain ⟨i, u, _, he, rfl⟩ := (step_next_iff s t).1 h
  exact State.key_of_keys (exec_footprint he).keys

/-- Settles O18: the memory of the footprint. -/
theorem onlyBcdAndBlockStoreWriteMemory : Obligations.OnlyBcdAndBlockStoreWriteMemory :=
  fun _ _ _ hi h => State.memRead_of_mem ((exec_footprint h).mem hi)

/-- Settles O19: `I` in the footprint. -/
theorem onlyThreeInstructionsWriteIndex : Obligations.OnlyThreeInstructionsWriteIndex :=
  fun _ _ _ hi h => (exec_footprint h).index hi

/-- Settles O20: the call stack in the footprint. -/
theorem onlyCallAndReturnTouchTheStack : Obligations.OnlyCallAndReturnTouchTheStack :=
  fun _ _ _ hi h => (exec_footprint h).stack hi

/-- Settles O21: the framebuffer in the footprint. -/
theorem onlyClearAndDrawWriteCells : Obligations.OnlyClearAndDrawWriteCells :=
  fun _ _ _ hi h => State.cell_of_fb ((exec_footprint h).fb hi)

/-- Settles O22: `REDRAW` in the footprint of the executed instruction; the tick keeps it. -/
theorem redrawIsSetByClearAndDrawAlone : Obligations.RedrawIsSetByClearAndDrawAlone := by
  intro s t i hd h
  obtain ⟨u, hu, rfl⟩ := step_footprint hd h
  exact hu.redraw

end Sys2Proof.Machine
end

/-! ### Two runs that differ where no instruction looks -/

section
namespace Sys2Proof.Machine

/-- What two runs need of a relation between their addresses to stay together: memory sees the low 12 bits alone (R50),
and `PC` and `I` change by addition or by a new value that both runs share. -/
structure AddressRel (A : Word → Word → Prop) : Prop where
  refl : ∀ a, A a a
  low : ∀ {a b}, A a b → SameAddress a b
  add : ∀ {a b} c, A a b → A (a + c) (b + c)

theorem addressRel_eq : AddressRel Eq where
  refl _ := rfl
  low h := congrArg (fun a : Word => a.toNat % 4096) h
  add c h := congrArg (· + c) h

theorem addressRel_sameAddress : AddressRel SameAddress where
  refl _ := rfl
  low h := h
  add c h := h.add c

/-- If the tick keeps a relation between states, the end of a step keeps it between results. -/
theorem SimilarResults.finishStep {R : State → State → Prop} {p q : Result} (h : SimilarResults R p q)
    (hR : ∀ s t, R s t → R s.tick t.tick) : SimilarResults R (finishStep p) (finishStep q) := by
  cases p with
  | next s =>
    cases q with
    | next t => exact hR s t h
    | fault g => exact h
    | refused r => exact h
  | fault f => cases q <;> exact h
  | refused r => cases q <;> exact h

/-- `t` is `s` but for the addresses in `I`, `PC` and the stack, which are related by `A`, and, unless `outputs` holds,
for `ST` and `REDRAW`. -/
structure Alike (A : Word → Word → Prop) (outputs : Prop) (s t : State) : Prop where
  v : t.v = s.v
  i : A s.i t.i
  pc : A s.pc t.pc
  stack : ∀ k (hk : k < 16), A s.stack[k] t.stack[k]
  sp : t.sp = s.sp
  dt : t.dt = s.dt
  st : outputs → t.st = s.st
  keys : t.keys = s.keys
  fb : t.fb = s.fb
  redraw : outputs → t.redraw = s.redraw
  mem : t.mem = s.mem
  draws : t.draws = s.draws

namespace Alike

variable {A : Word → Word → Prop} {outputs : Prop} {s t : State}

/-- Alike states differ in no other field. -/
theorem eq_updated (h : Alike A outputs s t) :
    t = { s with i := t.i, pc := t.pc, stack := t.stack, st := t.st, redraw := t.redraw } :=
  (State.mk.injEq ..).mpr ⟨h.v, rfl, rfl, rfl, h.sp, h.dt, rfl, h.keys, h.fb, rfl, h.mem, h.draws⟩

/-! #### What alike states read -/

theorem getV (h : Alike A outputs s t) (x : Nibble) : t.getV x = s.getV x := State.getV_of_v h.v x

theorem memRead (h : Alike A outputs s t) {a c : Nat} (ha : c % 4096 = a % 4096) : t.memRead c = s.memRead a := by
  rw [State.memRead_of_mem h.mem, State.memRead_congr s ha]

theorem indexed (hA : AddressRel A) (h : Alike A outputs s t) (k : Nat) :
    t.indexed k % 4096 = s.indexed k % 4096 := by
  have hi : s.i.toNat % 4096 = t.i.toNat % 4096 := hA.low h.i
  simp only [State.indexed]
  omega

theorem fetch (hA : AddressRel A) (h : Alike A outputs s t) : t.fetch = s.fetch :=
  State.fetch_congr h.mem (hA.low h.pc).symm

theorem wideV (h : Alike A outputs s t) (x : Nibble) : t.wideV x = s.wideV x := by simp only [State.wideV, h.getV]

theorem block (h : Alike A outputs s t) (x : Nibble) : t.block x = s.block x := by simp only [State.block, h.getV]

theorem key (h : Alike A outputs s t) (k : Nibble) : t.key k = s.key k := State.key_of_keys h.keys k

theorem keyOf (h : Alike A outputs s t) (x : Nibble) : t.key (t.keyIndex x) = s.key (s.keyIndex x) := by
  simp only [State.keyIndex, h.getV, h.key]

theorem lowestKey (h : Alike A outputs s t) : t.lowestKey = s.lowestKey := by
  have hk : t.key = s.key := funext h.key
  simp only [State.lowestKey, hk]

theorem blit (hA : AddressRel A) (h : Alike A outputs s t) (x y n : Nibble) :
    t.blit (t.spriteColumn x) (t.spriteRow y) n.toNat = s.blit (s.spriteColumn x) (s.spriteRow y) n.toNat := by
  have hb : t.spriteByte = s.spriteByte := funext fun k => h.memRead (h.indexed hA k)
  simp only [State.blit, State.spriteColumn, State.spriteRow, h.getV, h.fb, hb]

/-! #### The operations keep states alike -/

theorem advance (hA : AddressRel A) (h : Alike A outputs s t) : Alike A outputs s.advance t.advance :=
  { h with pc := hA.add 2 h.pc }

theorem jump (h : Alike A outputs s t) {w w' : Word} (hw : A w w') : Alike A outputs (s.jump w) (t.jump w') :=
  { h with pc := hw }

theorem skipIf (hA : AddressRel A) (h : Alike A outputs s t) {c c' : Bool} (hc : c' = c) :
    Alike A outputs (s.skipIf c) (t.skipIf c') :=
  { h with pc := hc ▸ hA.add _ h.pc }

theorem setV (h : Alike A outputs s t) (x : Nibble) {b b' : Byte} (hb : b' = b) :
    Alike A outputs (s.setV x b) (t.setV x b') :=
  { h with v := by rw [State.setV, State.setV, h.v, hb] }

theorem setFlagThenResult (h : Alike A outputs s t) (x : Nibble) {f f' b b' : Byte} (hf : f' = f) (hb : b' = b) :
    Alike A outputs (s.setFlagThenResult x f b) (t.setFlagThenResult x f' b') :=
  (h.setV 15 hf).setV x hb

theorem setI (h : Alike A outputs s t) {w w' : Word} (hw : A w w') : Alike A outputs (s.setI w) (t.setI w') :=
  { h with i := hw }

theorem storeBytes (h : Alike A outputs s t) {a c : Nat} (ha : c % 4096 = a % 4096) {bs bs' : List Byte}
    (hb : bs' = bs) : Alike A outputs (s.storeBytes a bs) (t.storeBytes c bs') := by
  rw [s.storeBytes_eq, t.storeBytes_eq]
  exact { h with mem := hb ▸ State.storeBytes_mem_congr h.mem ha _ }

theorem loadBlock (h : Alike A outputs s t) {a c : Nat} (ha : c % 4096 = a % 4096) (x : Nibble) :
    Alike A outputs (s.loadBlock a x) (t.loadBlock c x) := by
  have hv : ∀ r, (t.loadBlock c x).getV r = (s.loadBlock a x).getV r := fun r => by
    rw [State.getV_loadBlock, State.getV_loadBlock, h.getV, h.memRead (a := a + r.toNat) (by omega)]
  rw [s.loadBlock_eq, t.loadBlock_eq]
  exact { h with v := State.v_ext hv }

theorem tick (h : Alike A outputs s t) : Alike A outputs s.tick t.tick :=
  { h with dt := congrArg tickTimer h.dt, st := fun ho => congrArg tickTimer (h.st ho) }

/-! #### The instructions with more than one ending -/

theorem similar_ret (h : Alike A outputs s t) : SimilarResults (Alike A outputs) (exec .ret s) (exec .ret t) := by
  by_cases hsp : s.sp = 0
  · rw [exec_ret_empty s hsp, exec_ret_empty t (h.sp.trans hsp)]
    rfl
  · obtain ⟨hk, hs⟩ := exec_ret_some s hsp
    obtain ⟨_, ht⟩ := exec_ret_some t (h.sp ▸ hsp)
    rw [hs, ht]
    exact { h with pc := by simpa only [h.sp] using h.stack _ hk, sp := by simp only [h.sp] }

theorem similar_call (hA : AddressRel A) (h : Alike A outputs s t) (nnn : Addr12) :
    SimilarResults (Alike A outputs) (exec (.call nnn) s) (exec (.call nnn) t) := by
  by_cases hsp : s.sp = 16
  · rw [exec_call_full s nnn hsp, exec_call_full t nnn (h.sp.trans hsp)]
    rfl
  · obtain ⟨_, hs⟩ := exec_call_room s nnn hsp
    obtain ⟨_, ht⟩ := exec_call_room t nnn (h.sp ▸ hsp)
    rw [hs, ht]
    refine { h with pc := hA.refl _, sp := by simp only [h.sp], stack := fun k hk => ?_ }
    simp only [Vector.getElem_set, h.sp]
    split
    · exact hA.add 2 h.pc
    · exact h.stack k hk

theorem similar_ldVxKey (hA : AddressRel A) (h : Alike A outputs s t) (x : Nibble) :
    SimilarResults (Alike A outputs) (exec (.ldVxKey x) s) (exec (.ldVxKey x) t) := by
  cases hk : s.lowestKey with
  | none =>
    rw [exec_ldVxKey_none s x hk, exec_ldVxKey_none t x (h.lowestKey.trans hk)]
    exact h
  | some k =>
    rw [exec_ldVxKey_some s x hk, exec_ldVxKey_some t x (h.lowestKey.trans hk)]
    exact (h.setV x rfl).advance hA

/-! #### Every instruction, and the step -/

/-- No instruction tells alike states apart. -/
theorem similar_exec (hA : AddressRel A) (h : Alike A outputs s t) (i : Instr) :
    SimilarResults (Alike A outputs) (exec i s) (exec i t) := by
  cases i with
  | cls => exact advance hA { h with fb := rfl, redraw := fun _ => rfl }
  | ret => exact h.similar_ret
  | jp nnn => exact h.jump (hA.refl _)
  | call nnn => exact h.similar_call hA nnn
  | seImm x kk | sneImm x kk | seReg x y | sneReg x y => exact h.skipIf hA (by simp only [h.getV])
  | ldImm x kk => exact (h.setV x rfl).advance hA
  | addImm x kk | ldReg x y | orReg x y | andReg x y | xorReg x y =>
    exact (h.setV x (by simp only [h.getV])).advance hA
  | addReg x y | subReg x y | shr x y | subnReg x y | shl x y =>
    exact (h.setFlagThenResult x (by simp only [h.getV]) (by simp only [h.getV])).advance hA
  | ldI nnn => exact (h.setI (hA.refl _)).advance hA
  | jpV0 nnn => exact h.jump (h.wideV 0 ▸ hA.refl _)
  | rnd x kk =>
    have hd : Alike A outputs s.drawByte.2 t.drawByte.2 := { h with draws := congrArg (· + 1) h.draws }
    exact (hd.setV x (by rw [State.drawByte, State.drawByte, h.draws])).advance hA
  | drw x y n =>
    have hb := h.blit hA x y n
    have hd : Alike A outputs { s with fb := (s.blit (s.spriteColumn x) (s.spriteRow y) n.toNat).fb, redraw := true }
        { t with fb := (t.blit (t.spriteColumn x) (t.spriteRow y) n.toNat).fb, redraw := true } :=
      { h with fb := congrArg Blit.fb hb, redraw := fun _ => rfl }
    exact (hd.setV 15 (by rw [hb])).advance hA
  | skp x => exact h.skipIf hA (h.keyOf x)
  | sknp x => exact h.skipIf hA (by rw [h.keyOf])
  | ldVxDt x => exact (h.setV x h.dt).advance hA
  | ldVxKey x => exact h.similar_ldVxKey hA x
  | ldDtVx x => exact advance hA { h with dt := h.getV x }
  | ldStVx x => exact advance hA { h with st := fun _ => h.getV x }
  | addI x => exact (h.setI (h.wideV x ▸ hA.add _ h.i)).advance hA
  | ldF x => exact (h.setI (h.getV x ▸ hA.refl _)).advance hA
  | ldB x => exact (h.storeBytes (h.indexed hA 0) (by rw [h.getV])).advance hA
  | stRegs x => exact (h.storeBytes (h.indexed hA 0) (h.block x)).advance hA
  | ldRegs x => exact (h.loadBlock (h.indexed hA 0) x).advance hA

/-- A step ends in the same fatal result from alike states, or leaves them alike. -/
theorem similar_step (hA : AddressRel A) (h : Alike A outputs s t) :
    SimilarResults (Alike A outputs) (step s) (step t) := by
  unfold step
  rw [h.fetch hA]
  cases decode s.fetch with
  | none => rfl
  | some i => exact (h.similar_exec hA i).finishStep fun _ _ => tick

end Alike

/-- R23, R24: the addresses agree in their low 12 bits, the outputs agree. -/
theorem aliasedStates_eq_alike : AliasedStates = Alike SameAddress True := by
  funext s t
  refine propext ⟨fun ⟨hi, hpc, hstack, ht⟩ => ?_, fun h => ⟨h.i, h.pc, fun k => h.stack k k.isLt, ?_⟩⟩
  · constructor
    case i => exact hi
    case pc => exact hpc
    case stack => exact fun k hk => hstack ⟨k, hk⟩
    case st | redraw => intro _; rw [ht]
    all_goals rw [ht]
  · exact h.eq_updated.trans (by rw [h.st trivial, h.redraw trivial])

/-- R27, R30: the addresses are equal, the outputs are free. -/
theorem sameButOutputs_eq_alike : SameButOutputs = Alike Eq False := by
  funext s t
  refine propext ⟨fun ht => ?_, fun h => ?_⟩
  · constructor
    case st | redraw => exact False.elim
    case stack => intro k hk; rw [ht]
    all_goals rw [ht]
  · have hstack : s.stack = t.stack := Vector.ext h.stack
    exact h.eq_updated.trans (by rw [← h.i, ← h.pc, ← hstack])

/-- Settles O24: addresses that agree in their low 12 bits are an `AddressRel`, and a step keeps states alike. -/
theorem highAddressBitsAreUnobservable : Obligations.HighAddressBitsAreUnobservable := by
  unfold Obligations.HighAddressBitsAreUnobservable
  rw [aliasedStates_eq_alike]
  exact fun _ _ h => h.similar_step addressRel_sameAddress

/-- Settles O25: a step keeps states alike whether or not they agree on `ST` and `REDRAW`. -/
theorem soundTimerAndRedrawAreNeverRead : Obligations.SoundTimerAndRedrawAreNeverRead := by
  unfold Obligations.SoundTimerAndRedrawAreNeverRead
  rw [sameButOutputs_eq_alike]
  exact fun _ _ h => h.similar_step addressRel_eq

end Sys2Proof.Machine
end

/-! ### Construction and the host's reset -/

section
namespace Sys2Proof.Machine

/-- What R35 and R36 say alike of every item but memory. -/
def State.Cleared (c : State) : Prop :=
  (∀ r, c.getV r = 0) ∧ c.i = 0 ∧ c.pc.toNat = 0x200 ∧ c.sp = 0 ∧ (∀ k : Fin 16, c.stack[k] = 0) ∧
    c.dt = 0 ∧ c.st = 0 ∧ (∀ k, c.key k = false) ∧ (∀ k, c.cell k = false) ∧ c.redraw = false

/-- Whatever memory holds, and however many random bytes were taken. -/
theorem State.cleared_reset (m : Memory) (d : Nat) : ({ State.reset with mem := m, draws := d } : State).Cleared :=
  ⟨fun r => by simp [State.getV], rfl, rfl, rfl, fun k => by simp, rfl, rfl, fun k => by simp [State.key],
    fun k => by simp [State.cell], rfl⟩

theorem State.construct_eq (font : Vector Byte 80) :
    State.construct font = { State.reset with mem := (State.construct font).mem } := State.storeBytes_eq ..

/-- R35: the font bytes, at their addresses. -/
theorem State.construct_font (font : Vector Byte 80) (k : Fin 80) :
    (State.construct font).memRead (0x050 + k.val) = font[k] :=
  State.memRead_storeBytes_inside State.reset 0x050 k font.toList (by simp) (by simp)

/-- R35: an address outside the font. -/
theorem State.construct_zero (font : Vector Byte 80) {a : Nat} (ha : a < 4096) (hout : a < 0x050 ∨ 0x0A0 ≤ a) :
    (State.construct font).memRead a = 0 := by
  have hkeep : (State.construct font).memRead a = State.reset.memRead a :=
    State.memRead_storeBytes_outside _ _ _ _ fun k hk => by
      have hk80 : k < 80 := by simpa using hk
      simp only [Config.fontBase]
      omega
  rw [hkeep, State.memRead, Nat.mod_eq_of_lt ha]
  exact Memory.initial_zero hout

/-- R36: memory below 0x200 is kept, and is 0 from there up. -/
theorem State.memRead_hostReset (s : State) {a : Nat} (ha : a < 4096) :
    s.hostReset.memRead a = if a < 0x200 then s.memRead a else 0 := by
  simp only [State.memRead, State.hostReset, Nat.mod_eq_of_lt ha, Memory.read_clearProgram]

/-- Settles O54: construction stores the font over `State.reset`. -/
theorem constructionState : Obligations.ConstructionState := fun font =>
  ⟨_, rfl, State.construct_font font, fun _ ha hout => State.construct_zero font ha hout,
    State.construct_eq font ▸ State.cleared_reset _ _⟩

/-- Settles O56: the host's reset is `State.reset` with the program region cleared. -/
theorem hostResetState : Obligations.HostResetState := fun s =>
  ⟨_, rfl, fun _ ha => s.memRead_hostReset ha, State.cleared_reset _ _⟩

/-- Settles O14: memory at reset lists nothing. -/
theorem resetMemoryIsCanonical : Obligations.ResetMemoryIsCanonical := Memory.wf_nil

/-- Settles O55: storing the default font lists nothing, because unlisted addresses read as it already. -/
theorem resetIsConstructionWithTheDefaultFont : Obligations.ResetIsConstructionWithTheDefaultFont := by
  intro font hfont
  have hmem : (State.construct font).mem = [] := by
    refine State.storeBytes_initial rfl _ _ fun k hk => ?_
    have hk80 : k < 80 := by simpa using hk
    rw [Nat.mod_eq_of_lt (by simp only [Config.fontBase]; omega), Memory.initial_font hk80, ← hfont]
    simp [hk80]
  rw [State.construct_eq, hmem]
  rfl

end Sys2Proof.Machine
end

/-! ## Memory (spec 20_memory): proofs -/

/-! ### The fetch reads two bytes -/

section
namespace Sys2Proof.Machine

theorem opcodeOf_highByte (hi lo : Byte) : (opcodeOf hi lo).extractLsb' 8 8 = hi :=
  BitVec.extractLsb'_append_eq_left

theorem opcodeOf_lowByte (hi lo : Byte) : (opcodeOf hi lo).extractLsb' 0 8 = lo :=
  BitVec.extractLsb'_append_eq_right

/-- The fetch from the bytes at addresses that agree with `PC` and `PC + 1` mod 4096 (R50, R53). -/
theorem State.fetch_of_memRead {s : State} {a c : Nat} {hi lo : Byte} (ha : a % 4096 = s.pc.toNat % 4096)
    (hc : c % 4096 = (s.pc.toNat + 1) % 4096) (hhi : s.memRead a = hi) (hlo : s.memRead c = lo) :
    s.fetch = opcodeOf hi lo := by
  rw [State.fetch, ← State.memRead_congr s ha, ← State.memRead_congr s hc, hhi, hlo]

/-- Settles O6: the fetch is the two bytes appended, the first of them on the left. -/
theorem fetchReadsBigEndian : Obligations.FetchReadsBigEndian := by
  intro s hi lo hhi hlo
  have hf : s.fetch = opcodeOf hi lo := State.fetch_of_memRead (Nat.mod_mod ..) (Nat.mod_mod ..) hhi hlo
  rw [hf]
  exact ⟨by rw [opcodeOf_toNat, Nat.mul_comm], opcodeOf_highByte hi lo, opcodeOf_lowByte hi lo⟩

end Sys2Proof.Machine
end

/-! ### Stores: the canonical form, and a store into the next instruction -/

section
namespace Sys2Proof.Machine

variable {i : Instr} {s t : State}

/-- `Fx33` and `Fx55` store bytes from `I` up and advance `PC`, and that is all they do (R128, R130). -/
theorem exec_of_stores (s : State) (hi : i.stores = true) :
    ∃ bytes, exec i s = .next (s.storeBytes (s.indexed 0) bytes).advance := by
  cases i with
  | ldB x => exact ⟨bcdDigits (s.getV x), rfl⟩
  | stRegs x => exact ⟨s.block x, rfl⟩
  | _ => cases hi

/-- Every instruction that completes keeps memory canonical: a storing one by `State.storeBytes_wf`, any other by its
footprint. -/
theorem exec_keeps_wf (hwf : s.mem.wf) (h : exec i s = .next t) : t.mem.wf := by
  cases hi : i.stores with
  | false =>
    have hmem : t.mem = s.mem := (exec_footprint h).mem hi
    exact hmem ▸ hwf
  | true =>
    obtain ⟨bytes, he⟩ := exec_of_stores s hi
    obtain rfl := Host.Outcome.next.inj (he.symm.trans h)
    exact State.storeBytes_wf _ bytes hwf

/-- Settles O13: the executed instruction keeps memory canonical, and the tick keeps memory. -/
theorem stepKeepsMemoryCanonical : Obligations.StepKeepsMemoryCanonical := by
  intro s t hwf h
  obtain ⟨i, u, _, he, rfl⟩ := (step_next_iff s t).1 h
  have hu : u.mem.wf := exec_keeps_wf hwf he
  exact hu

/-- After the block `V[0..x]` is stored at `I`, `V[k]` reads back at `I + k` (R130). -/
theorem State.memRead_storeBlock (s : State) {x : Nibble} {k : Nat} (hk : k ≤ x.toNat) :
    (s.storeBytes (s.indexed 0) (s.block x)).memRead (s.indexed k) = s.getV (BitVec.ofNat 4 k) := by
  have hlen : (s.block x).length = x.toNat + 1 := s.block_length x
  have hklt : k < (s.block x).length := by omega
  rw [← s.block_get x k hklt]
  exact State.memRead_storeBytes_inside s s.i.toNat k (s.block x) hklt (by omega)

/-- The 16-bit wrap of `PC` is not seen mod 4096. -/
theorem State.advance_pc_toNat_mod (s : State) : s.advance.pc.toNat % 4096 = (s.pc.toNat + 2) % 4096 := by
  have hadd : s.advance.pc.toNat = (s.pc.toNat + 2) % 65536 := BitVec.toNat_add s.pc 2
  omega

/-- Where the stored block covers the two addresses at the advanced `PC`, the fetch there reads its registers (R60). -/
theorem State.fetch_advance_storeBlock (s : State) {x : Nibble} {k : Nat} (hk : k < x.toNat)
    (ha : s.indexed k % 4096 = (s.pc.toNat + 2) % 4096) :
    (s.storeBytes (s.indexed 0) (s.block x)).advance.fetch =
      opcodeOf (s.getV (BitVec.ofNat 4 k)) (s.getV (BitVec.ofNat 4 (k + 1))) := by
  have hpc := (s.storeBytes (s.indexed 0) (s.block x)).advance_pc_toNat_mod
  rw [State.storeBytes_pc, ← ha] at hpc
  have hnext : s.indexed (k + 1) = s.indexed k + 1 := rfl
  exact State.fetch_of_memRead hpc.symm (by omega) (s.memRead_storeBlock hk.le) (s.memRead_storeBlock hk)

/-- Settles O26: the step stores the block, advances and ticks, and its next fetch reads the block. -/
theorem storedInstructionIsFetchedNext : Obligations.StoredInstructionIsFetchedNext := by
  intro s x k hd hk ha
  have hstep : step s = .next (s.storeBytes (s.indexed 0) (s.block x)).advance.tick :=
    (step_next_iff s _).2 ⟨_, _, hd, rfl, rfl⟩
  exact ⟨_, hstep, by rw [State.fetch_tick, s.fetch_advance_storeBlock hk ha, opcodeOf_toNat, Nat.mul_comm]⟩

end Sys2Proof.Machine
end

/-! ## Encoding (spec 30_encoding): proofs -/

/-! ### Decoding an encoded instruction -/

section
namespace Sys2Proof

/-- Each format's fields read back what the encoder put in (R72), so the dispatch of R75-R77 takes the instruction's own
branch: the primary one alone, or one of the families 8, E and F. -/
theorem decode_encode (i : Instr) : decode (encode i) = some i := by
  cases i with
  | cls | ret => rfl
  | jp nnn | call nnn | ldI nnn | jpV0 nnn | seImm x kk | sneImm x kk | ldImm x kk | addImm x kk | rnd x kk | seReg x y
  | sneReg x y | drw x y n => simp [encode, decode]
  | ldReg x y | orReg x y | andReg x y | xorReg x y | addReg x y | subReg x y | shr x y | subnReg x y | shl x y =>
    simp [encode, decode, decode8]
  | skp x | sknp x => simp [encode, decode, decodeE]
  | ldVxDt x | ldVxKey x | ldDtVx x | ldStVx x | addI x | ldF x | ldB x | stRegs x | ldRegs x =>
    simp [encode, decode, decodeF]

/-- Settles O1: the operand types carry the ranges, and the fields read back. -/
theorem decodeOfEncodeIsIdentity : Obligations.DecodeOfEncodeIsIdentity := fun i =>
  ⟨i.wellFormed_true, decode_encode i⟩

end Sys2Proof
end

/-! ### Encoding a decoded word -/

section
namespace Sys2Proof

variable {w : Word} {i : Instr} {op n : Nibble} {kk : Byte}

/-! #### A word rebuilt from the fixed fields of its format and its own free ones (R72) -/

theorem wordNnn_of_op (hop : fieldOp w = op) : wordNnn op (fieldNnn w) = w := hop ▸ wordNnn_fields w

theorem wordXkk_of_op (hop : fieldOp w = op) : wordXkk op (fieldX w) (fieldKk w) = w := hop ▸ wordXkk_fields w

theorem wordXkk_of_op_kk (hop : fieldOp w = op) (hkk : fieldKk w = kk) : wordXkk op (fieldX w) kk = w :=
  hkk ▸ wordXkk_of_op hop

theorem wordXyn_of_op (hop : fieldOp w = op) : wordXyn op (fieldX w) (fieldY w) (fieldN w) = w :=
  hop ▸ wordXyn_fields w

theorem wordXyn_of_op_n (hop : fieldOp w = op) (hn : fieldN w = n) : wordXyn op (fieldX w) (fieldY w) n = w :=
  hn ▸ wordXyn_of_op hop

/-! #### The secondary dispatches (R76, R77) -/

theorem encode_of_decode0 (h : decode0 w = some i) : encode i = w := by
  unfold decode0 at h
  split_ifs at h with hcls hret
  · cases h; exact hcls.symm
  · cases h; exact hret.symm

theorem encode_of_decode8 (hop : fieldOp w = 0x8#4) (h : decode8 w = some i) : encode i = w := by
  unfold decode8 at h
  split at h <;> cases h <;> exact wordXyn_of_op_n hop ‹_›

theorem encode_of_decodeE (hop : fieldOp w = 0xE#4) (h : decodeE w = some i) : encode i = w := by
  unfold decodeE at h
  split at h <;> cases h <;> exact wordXkk_of_op_kk hop ‹_›

theorem encode_of_decodeF (hop : fieldOp w = 0xF#4) (h : decodeF w = some i) : encode i = w := by
  unfold decodeF at h
  split at h <;> cases h <;> exact wordXkk_of_op_kk hop ‹_›

/-! #### The primary dispatch (R75) -/

/-- The branches stand in the order of the top nibble, 0 to F. -/
theorem encode_of_decode (h : decode w = some i) : encode i = w := by
  unfold decode at h
  split at h
  next => exact encode_of_decode0 h
  next hop => cases h; exact wordNnn_of_op hop
  next hop => cases h; exact wordNnn_of_op hop
  next hop => cases h; exact wordXkk_of_op hop
  next hop => cases h; exact wordXkk_of_op hop
  next hop =>
    split_ifs at h with hn
    cases h; exact wordXyn_of_op_n hop hn
  next hop => cases h; exact wordXkk_of_op hop
  next hop => cases h; exact wordXkk_of_op hop
  next hop => exact encode_of_decode8 hop h
  next hop =>
    split_ifs at h with hn
    cases h; exact wordXyn_of_op_n hop hn
  next hop => cases h; exact wordNnn_of_op hop
  next hop => cases h; exact wordNnn_of_op hop
  next hop => cases h; exact wordXkk_of_op hop
  next hop => cases h; exact wordXyn_of_op hop
  next hop => exact encode_of_decodeE hop h
  next hop => exact encode_of_decodeF hop h
  next => cases h

/-- Settles O2, along the dispatch. -/
theorem encodeOfDecodeIsTheWord : Obligations.EncodeOfDecodeIsTheWord := fun _ _ h => encode_of_decode h

end Sys2Proof
end

/-! ### The decoder and the opcode map -/

section
namespace Sys2Proof

variable {w : Word} {i : Instr} {r q : Row} {op n : Nibble} {kk : Byte}

theorem Row.selects_iff : r.selects w = true ↔ w &&& r.format.mask = r.pattern := beq_iff_eq

/-! #### A decoded word is selected by its instruction's row -/

/-- The laws of the family, together: every instruction's row is in the table and selects the instruction's word. -/
theorem encodesToRow : ∀ i : Instr, Laws.EncodesToRow.Statement i
  | .cls => Laws.EncodesToRow.cls
  | .ret => Laws.EncodesToRow.ret
  | .jp nnn => Laws.EncodesToRow.jp nnn
  | .call nnn => Laws.EncodesToRow.call nnn
  | .seImm x kk => Laws.EncodesToRow.seImm x kk
  | .sneImm x kk => Laws.EncodesToRow.sneImm x kk
  | .seReg x y => Laws.EncodesToRow.seReg x y
  | .ldImm x kk => Laws.EncodesToRow.ldImm x kk
  | .addImm x kk => Laws.EncodesToRow.addImm x kk
  | .ldReg x y => Laws.EncodesToRow.ldReg x y
  | .orReg x y => Laws.EncodesToRow.orReg x y
  | .andReg x y => Laws.EncodesToRow.andReg x y
  | .xorReg x y => Laws.EncodesToRow.xorReg x y
  | .addReg x y => Laws.EncodesToRow.addReg x y
  | .subReg x y => Laws.EncodesToRow.subReg x y
  | .shr x y => Laws.EncodesToRow.shr x y
  | .subnReg x y => Laws.EncodesToRow.subnReg x y
  | .shl x y => Laws.EncodesToRow.shl x y
  | .sneReg x y => Laws.EncodesToRow.sneReg x y
  | .ldI nnn => Laws.EncodesToRow.ldI nnn
  | .jpV0 nnn => Laws.EncodesToRow.jpV0 nnn
  | .rnd x kk => Laws.EncodesToRow.rnd x kk
  | .drw x y n => Laws.EncodesToRow.drw x y n
  | .skp x => Laws.EncodesToRow.skp x
  | .sknp x => Laws.EncodesToRow.sknp x
  | .ldVxDt x => Laws.EncodesToRow.ldVxDt x
  | .ldVxKey x => Laws.EncodesToRow.ldVxKey x
  | .ldDtVx x => Laws.EncodesToRow.ldDtVx x
  | .ldStVx x => Laws.EncodesToRow.ldStVx x
  | .addI x => Laws.EncodesToRow.addI x
  | .ldF x => Laws.EncodesToRow.ldF x
  | .ldB x => Laws.EncodesToRow.ldB x
  | .stRegs x => Laws.EncodesToRow.stRegs x
  | .ldRegs x => Laws.EncodesToRow.ldRegs x

theorem row_mem_opcodeTable (i : Instr) : i.row ∈ opcodeTable := (encodesToRow i).2.1

theorem row_selects_of_decode (h : decode w = some i) : i.row.selects w = true :=
  encode_of_decode h ▸ (encodesToRow i).2.2

/-! #### A selected word is some instruction's word

The three masks fix `op`, `op` and `n`, or `op` and `kk`; the free fields of the word are the instruction's operands. -/

theorem fieldOp_of_selects (hf : r.format.mask = 0xF000#16) (hp : r.pattern = wordNnn op 0)
    (h : r.selects w = true) : fieldOp w = op := by
  rw [Row.selects_iff, hf, hp, and_maskTop] at h
  simpa using congrArg fieldOp h

theorem fieldOp_fieldN_of_selects (hf : r.format.mask = 0xF00F#16) (hp : r.pattern = wordXyn op 0 0 n)
    (h : r.selects w = true) : fieldOp w = op ∧ fieldN w = n := by
  rw [Row.selects_iff, hf, hp, and_maskXy] at h
  exact ⟨by simpa using congrArg fieldOp h, by simpa using congrArg fieldN h⟩

theorem fieldOp_fieldKk_of_selects (hf : r.format.mask = 0xF0FF#16) (hp : r.pattern = wordXkk op 0 kk)
    (h : r.selects w = true) : fieldOp w = op ∧ fieldKk w = kk := by
  rw [Row.selects_iff, hf, hp, and_maskX] at h
  exact ⟨by simpa using congrArg fieldOp h, by simpa using congrArg fieldKk h⟩

theorem wordNnn_of_selects (hf : r.format.mask = 0xF000#16) (hp : r.pattern = wordNnn op 0)
    (h : r.selects w = true) : wordNnn op (fieldNnn w) = w :=
  wordNnn_of_op (fieldOp_of_selects hf hp h)

theorem wordXkk_of_selects (hf : r.format.mask = 0xF000#16) (hp : r.pattern = wordNnn op 0)
    (h : r.selects w = true) : wordXkk op (fieldX w) (fieldKk w) = w :=
  wordXkk_of_op (fieldOp_of_selects hf hp h)

theorem wordXyn_of_selects (hf : r.format.mask = 0xF000#16) (hp : r.pattern = wordNnn op 0)
    (h : r.selects w = true) : wordXyn op (fieldX w) (fieldY w) (fieldN w) = w :=
  wordXyn_of_op (fieldOp_of_selects hf hp h)

theorem wordXy_of_selects (hf : r.format.mask = 0xF00F#16) (hp : r.pattern = wordXyn op 0 0 n)
    (h : r.selects w = true) : wordXyn op (fieldX w) (fieldY w) n = w :=
  (fieldOp_fieldN_of_selects hf hp h).elim wordXyn_of_op_n

theorem wordX_of_selects (hf : r.format.mask = 0xF0FF#16) (hp : r.pattern = wordXkk op 0 kk)
    (h : r.selects w = true) : wordXkk op (fieldX w) kk = w :=
  (fieldOp_fieldKk_of_selects hf hp h).elim wordXkk_of_op_kk

theorem pattern_of_selects (hf : r.format.mask = 0xFFFF#16) (h : r.selects w = true) : r.pattern = w := by
  rw [← Row.selects_iff.1 h, hf, and_maskFix]

/-- Row by row, in the table's order: the row's instruction, with the operands the word holds. -/
theorem exists_encode_of_selects :
    ∀ r ∈ opcodeTable, r.selects w = true → ∃ i : Instr, i.row = r ∧ encode i = w := by
  simp only [opcodeTable, opcodeTableLow, opcodeTableAlu, opcodeTableHigh, List.cons_append, List.nil_append,
    List.forall_mem_cons]
  exact ⟨
    fun h => ⟨.cls, rfl, pattern_of_selects rfl h⟩,
    fun h => ⟨.ret, rfl, pattern_of_selects rfl h⟩,
    fun h => ⟨.jp _, rfl, wordNnn_of_selects rfl rfl h⟩,
    fun h => ⟨.call _, rfl, wordNnn_of_selects rfl rfl h⟩,
    fun h => ⟨.seImm _ _, rfl, wordXkk_of_selects rfl rfl h⟩,
    fun h => ⟨.sneImm _ _, rfl, wordXkk_of_selects rfl rfl h⟩,
    fun h => ⟨.seReg _ _, rfl, wordXy_of_selects rfl rfl h⟩,
    fun h => ⟨.ldImm _ _, rfl, wordXkk_of_selects rfl rfl h⟩,
    fun h => ⟨.addImm _ _, rfl, wordXkk_of_selects rfl rfl h⟩,
    fun h => ⟨.ldReg _ _, rfl, wordXy_of_selects rfl rfl h⟩,
    fun h => ⟨.orReg _ _, rfl, wordXy_of_selects rfl rfl h⟩,
    fun h => ⟨.andReg _ _, rfl, wordXy_of_selects rfl rfl h⟩,
    fun h => ⟨.xorReg _ _, rfl, wordXy_of_selects rfl rfl h⟩,
    fun h => ⟨.addReg _ _, rfl, wordXy_of_selects rfl rfl h⟩,
    fun h => ⟨.subReg _ _, rfl, wordXy_of_selects rfl rfl h⟩,
    fun h => ⟨.shr _ _, rfl, wordXy_of_selects rfl rfl h⟩,
    fun h => ⟨.subnReg _ _, rfl, wordXy_of_selects rfl rfl h⟩,
    fun h => ⟨.shl _ _, rfl, wordXy_of_selects rfl rfl h⟩,
    fun h => ⟨.sneReg _ _, rfl, wordXy_of_selects rfl rfl h⟩,
    fun h => ⟨.ldI _, rfl, wordNnn_of_selects rfl rfl h⟩,
    fun h => ⟨.jpV0 _, rfl, wordNnn_of_selects rfl rfl h⟩,
    fun h => ⟨.rnd _ _, rfl, wordXkk_of_selects rfl rfl h⟩,
    fun h => ⟨.drw _ _ _, rfl, wordXyn_of_selects rfl rfl h⟩,
    fun h => ⟨.skp _, rfl, wordX_of_selects rfl rfl h⟩,
    fun h => ⟨.sknp _, rfl, wordX_of_selects rfl rfl h⟩,
    fun h => ⟨.ldVxDt _, rfl, wordX_of_selects rfl rfl h⟩,
    fun h => ⟨.ldVxKey _, rfl, wordX_of_selects rfl rfl h⟩,
    fun h => ⟨.ldDtVx _, rfl, wordX_of_selects rfl rfl h⟩,
    fun h => ⟨.ldStVx _, rfl, wordX_of_selects rfl rfl h⟩,
    fun h => ⟨.addI _, rfl, wordX_of_selects rfl rfl h⟩,
    fun h => ⟨.ldF _, rfl, wordX_of_selects rfl rfl h⟩,
    fun h => ⟨.ldB _, rfl, wordX_of_selects rfl rfl h⟩,
    fun h => ⟨.stRegs _, rfl, wordX_of_selects rfl rfl h⟩,
    fun h => ⟨.ldRegs _, rfl, wordX_of_selects rfl rfl h⟩,
    fun _ hn => nomatch hn⟩

/-! #### The rows are disjoint, and the decoder follows them -/

/-- Two rows whose patterns agree on every bit that both masks fix are one row. -/
theorem eq_of_patterns_agree : ∀ r ∈ opcodeTable, ∀ q ∈ opcodeTable,
    r.pattern &&& q.format.mask = q.pattern &&& r.format.mask → r = q := by decide

/-- A word that both rows select holds both patterns, so they agree where both masks look. -/
theorem eq_of_selects (hr : r ∈ opcodeTable) (hq : q ∈ opcodeTable) (hrw : r.selects w = true)
    (hqw : q.selects w = true) : r = q := by
  apply eq_of_patterns_agree r hr q hq
  rw [← Row.selects_iff.1 hrw, ← Row.selects_iff.1 hqw]
  ac_rfl

theorem decodes_to_row_iff (hr : r ∈ opcodeTable) : (∃ i, decode w = some i ∧ i.row = r) ↔ r.selects w = true := by
  constructor
  · rintro ⟨i, hd, rfl⟩
    exact row_selects_of_decode hd
  · intro h
    obtain ⟨i, hrow, rfl⟩ := exists_encode_of_selects r hr h
    exact ⟨i, decode_encode i, hrow⟩

/-- Settles O4: the map has its 34 rows, disjoint by `eq_of_selects`, and the decoder follows it by
`decodes_to_row_iff`. -/
theorem decodeSelectsTheTableRow : Obligations.DecodeSelectsTheTableRow :=
  ⟨rfl, fun _ _ _ hr hq => eq_of_selects hr hq, fun _ i _ => row_mem_opcodeTable i,
    fun _ _ hr => (decodes_to_row_iff hr).trans Row.selects_iff⟩

/-- Settles O10: a word that decodes is selected by its instruction's row, so this one does not decode. -/
theorem illegalWordRaisesDecodeError : Obligations.IllegalWordRaisesDecodeError := by
  intro s hno
  have hd : decode s.fetch = none := Option.eq_none_iff_forall_ne_some.2 fun i hi =>
    hno i.row (row_mem_opcodeTable i) (Row.selects_iff.1 (row_selects_of_decode hi))
  exact (Machine.step_fault_iff s _).2 (.inl ⟨hd, rfl⟩)

end Sys2Proof
end

/-! ### Bytes, and the spec's words -/

section
namespace Sys2Proof

/-- A word is its two bytes, the high one first (R70). -/
theorem opcodeOf_bytes (w : Word) : opcodeOf (w.extractLsb' 8 8) (w.extractLsb' 0 8) = w := by
  apply BitVec.eq_of_toNat_eq
  rw [Machine.opcodeOf_toNat, BitVec.extractLsb'_toNat, BitVec.extractLsb'_toNat, Nat.shiftRight_eq_div_pow]
  omega

theorem decodeBytes_of_decode {hi lo : Byte} {i : Instr} (h : decode (opcodeOf hi lo) = some i) (rest : List Byte) :
    decodeBytes (hi :: lo :: rest) = .ok (i, rest) := by
  simp only [decodeBytes, h]

/-- Settles O3: the two bytes make up the instruction's word again, and the word decodes to it. -/
theorem bytesDecodeBigEndian : Obligations.BytesDecodeBigEndian := by
  intro i rest
  have hw := opcodeOf_bytes (encode i)
  refine ⟨decodeBytes_of_decode (hw.symm ▸ decode_encode i) rest, _, _, rfl, ?_⟩
  rw [Nat.mul_comm, ← Machine.opcodeOf_toNat, hw]

/-- Settles O5, by running the decoder on each word. -/
theorem specWordsDecode : Obligations.SpecWordsDecode := by
  unfold Obligations.SpecWordsDecode
  decide

end Sys2Proof
end

/-! ## The step (spec 40_step_cycle): proofs -/

/-! ### Fetch, decode, execute, tick -/

section
namespace Sys2Proof.Machine

theorem decode_of_decodeBytes {hi lo : Byte} {rest : List Byte} {i : Instr}
    (h : decodeBytes (hi :: lo :: rest) = .ok (i, rest)) : decode (opcodeOf hi lo) = some i := by
  unfold decodeBytes at h
  cases hd : decode (opcodeOf hi lo) with
  | none => simp [hd] at h
  | some j =>
    obtain rfl : j = i := by simpa [hd] using h
    rfl

/-- Settles O7: the two bytes make up the fetched word, and what its instruction answers decides how the step ends. -/
theorem stepRunsTheDecodedInstruction : Obligations.StepRunsTheDecodedInstruction := by
  intro s i h
  have hd : decode s.fetch = some i := decode_of_decodeBytes h
  exact ⟨fun t he => (step_next_iff s _).2 ⟨i, t, hd, he, rfl⟩,
    fun f he => (step_fault_iff s f).2 (.inr ⟨i, hd, he⟩)⟩

end Sys2Proof.Machine
end

/-! ### How the instructions with more than one ending complete -/

section
namespace Sys2Proof.Machine

variable {s t : State}

theorem exec_ret_next (h : exec .ret s = .next t) : ∃ hsp : s.sp.val - 1 < 16,
    t = { s with pc := s.stack[s.sp.val - 1], sp := ⟨s.sp.val - 1, by omega⟩ } := by
  by_cases hs : s.sp = 0
  · rw [exec_ret_empty s hs] at h
    cases h
  · obtain ⟨hsp, he⟩ := exec_ret_some s hs
    exact ⟨hsp, Host.Outcome.next.inj (h.symm.trans he)⟩

theorem exec_call_next {nnn : Addr12} (h : exec (.call nnn) s = .next t) : ∃ hsp : s.sp.val < 16,
    t = { s with pc := addrImm nnn, stack := s.stack.set s.sp.val (s.pc + 2), sp := ⟨s.sp.val + 1, by omega⟩ } := by
  by_cases hs : s.sp = 16
  · rw [exec_call_full s nnn hs] at h
    cases h
  · obtain ⟨hsp, he⟩ := exec_call_room s nnn hs
    exact ⟨hsp, Host.Outcome.next.inj (h.symm.trans he)⟩

theorem exec_ldVxKey_next {x : Nibble} (h : exec (.ldVxKey x) s = .next t) :
    (s.lowestKey = none ∧ t = s) ∨ ∃ k, s.lowestKey = some k ∧ t = (s.setV x (k.setWidth 8)).advance := by
  cases hk : s.lowestKey with
  | none => exact .inl ⟨rfl, Host.Outcome.next.inj (h.symm.trans (exec_ldVxKey_none s x hk))⟩
  | some k => exact .inr ⟨k, rfl, Host.Outcome.next.inj (h.symm.trans (exec_ldVxKey_some s x hk))⟩

end Sys2Proof.Machine
end

/-! ### The timers -/

section
namespace Sys2Proof.Machine

variable {i : Instr} {s t : State}

/-- `DT` as the instruction leaves it to the tick: only `Fx15` writes it (R149). -/
def dtBeforeTick (s : State) : Instr → Byte
  | .ldDtVx x => s.getV x
  | _ => s.dt

/-- `ST` as the instruction leaves it to the tick: only `Fx18` writes it (R150). -/
def stBeforeTick (s : State) : Instr → Byte
  | .ldStVx x => s.getV x
  | _ => s.st

theorem exec_timers (h : exec i s = .next t) : t.dt = dtBeforeTick s i ∧ t.st = stBeforeTick s i := by
  cases i with
  | ret => obtain ⟨_, rfl⟩ := exec_ret_next h; exact ⟨rfl, rfl⟩
  | call nnn => obtain ⟨_, rfl⟩ := exec_call_next h; exact ⟨rfl, rfl⟩
  | ldVxKey x => obtain ⟨_, rfl⟩ | ⟨k, _, rfl⟩ := exec_ldVxKey_next h <;> exact ⟨rfl, rfl⟩
  | ldB x | stRegs x =>
    obtain rfl := Host.Outcome.next.inj h; exact ⟨State.storeBytes_dt .., State.storeBytes_st ..⟩
  | ldRegs x => obtain rfl := Host.Outcome.next.inj h; exact ⟨State.loadBlock_dt .., State.loadBlock_st ..⟩
  | _ => obtain rfl := Host.Outcome.next.inj h; exact ⟨rfl, rfl⟩

/-- Settles O8: the tick takes one from each timer as the executed instruction leaves it. -/
theorem tickDecrementsAndSaturates : Obligations.TickDecrementsAndSaturates := by
  intro s t i hd h
  obtain ⟨j, u, hj, he, rfl⟩ := (step_next_iff s t).1 h
  obtain rfl : i = j := Option.some.inj (hd.symm.trans hj)
  obtain ⟨hdt, hst⟩ := exec_timers he
  rw [State.tick_dt, State.tick_st, tickTimer_toNat, tickTimer_toNat, hdt, hst]
  cases i <;> exact ⟨rfl, rfl⟩

end Sys2Proof.Machine
end

/-! ### The new `PC` -/

section
namespace Sys2Proof.Machine

variable {i : Instr} {s t : State}

theorem skipIf_pc_eq_skipPc {c : Bool} {p : Prop} [Decidable p] (hc : c = true ↔ p) :
    (s.skipIf c).pc.toNat = skipPc s p := by
  rw [State.skipIf_pc_toNat, skipPc, if_congr hc rfl rfl]

theorem pc_of_ret (h : exec .ret s = .next t) : t.pc.toNat = pcAfter s .ret := by
  obtain ⟨hsp, rfl⟩ := exec_ret_next h
  have hcell : s.stack.toList.getD (s.sp.val - 1) 0 = s.stack[s.sp.val - 1] := by simp [hsp]
  rw [pcAfter, hcell]

theorem pc_of_ldVxKey {x : Nibble} (h : exec (.ldVxKey x) s = .next t) : t.pc.toNat = pcAfter s (.ldVxKey x) := by
  rw [pcAfter]
  obtain ⟨hk, rfl⟩ | ⟨k, hk, rfl⟩ := exec_ldVxKey_next h
  · have hno : ¬∃ k, t.key k = true := by simpa using t.lowestKey_none.1 hk
    rw [if_neg hno]
  · rw [if_pos ⟨k, (s.lowestKey_some hk).1⟩]
    exact advanced_advance rfl

theorem jumpV0_pc_toNat (nnn : Addr12) : (addrImm nnn + s.wideV 0).toNat = pcAfter s (.jpV0 nnn) := by
  rw [BitVec.toNat_add, addrImm_toNat, State.wideV_toNat, pcAfter]

/-- R95, one row of the table after the other. -/
theorem exec_pc (h : exec i s = .next t) : t.pc.toNat = pcAfter s i := by
  cases i with
  | ret => exact pc_of_ret h
  | call nnn => obtain ⟨_, rfl⟩ := exec_call_next h; exact addrImm_toNat nnn
  | ldVxKey x => exact pc_of_ldVxKey h
  | jp nnn => obtain rfl := Host.Outcome.next.inj h; exact addrImm_toNat nnn
  | jpV0 nnn => obtain rfl := Host.Outcome.next.inj h; exact jumpV0_pc_toNat nnn
  | seImm x kk | seReg x y => obtain rfl := Host.Outcome.next.inj h; exact skipIf_pc_eq_skipPc beq_iff_eq
  | sneImm x kk | sneReg x y => obtain rfl := Host.Outcome.next.inj h; exact skipIf_pc_eq_skipPc bne_iff_ne
  | skp x => obtain rfl := Host.Outcome.next.inj h; exact skipIf_pc_eq_skipPc Iff.rfl
  | sknp x => obtain rfl := Host.Outcome.next.inj h; exact skipIf_pc_eq_skipPc (Bool.not_eq_true' _).to_iff
  | ldB x | stRegs x => obtain rfl := Host.Outcome.next.inj h; exact advanced_advance (State.storeBytes_pc ..)
  | ldRegs x => obtain rfl := Host.Outcome.next.inj h; exact advanced_advance (State.loadBlock_pc ..)
  | _ => obtain rfl := Host.Outcome.next.inj h; exact advanced_advance rfl

/-- Settles O12: the table, row by row. -/
theorem pcFollowsTheTable : Obligations.PcFollowsTheTable := fun _ _ _ h => exec_pc h

end Sys2Proof.Machine
end

/-! ## Control transfer (spec 41_control_flow): proofs -/

/-! ### Call and return -/

section
namespace Sys2Proof.Machine

variable {s : State}

/-- `00EE` with `n + 1` return addresses held (R100). -/
theorem exec_ret_of_sp {n : Nat} (hn : n < 16) (h : s.sp.val = n + 1) :
    exec .ret s = .next { s with pc := s.stack[n], sp := ⟨n, Nat.lt_succ_of_lt hn⟩ } := by
  have h0 : s.sp ≠ 0 := fun e => by simp [e] at h
  obtain ⟨_, he⟩ := exec_ret_some s h0
  simpa [h] using he

theorem onlyStackAndPc_set (w : Word) (cells : Vector Word 16) (n : Fin 17) :
    OnlyStackAndPc s { s with pc := w, stack := cells, sp := n } :=
  ⟨fun _ => rfl, rfl, fun _ => rfl, ⟨rfl, rfl⟩, ⟨rfl, rfl⟩, rfl, rfl⟩

/-- Settles O31: the return finds, in the cell the call wrote, the address the call pushed. -/
theorem callThenReturnRoundTrip : Obligations.CallThenReturnRoundTrip := by
  intro s nnn h
  obtain ⟨hsp, hcall⟩ := exec_call_room s nnn h
  refine ⟨_, hcall, fun u ⟨hstack, hdepth⟩ => ?_⟩
  have hret := exec_ret_of_sp hsp (congrArg Fin.val hdepth)
  have hcell : u.stack[s.sp.val] = s.pc + 2 := by simp [hstack]
  refine ⟨_, hret, rfl, ?_⟩
  rw [hcell]
  exact BitVec.toNat_add ..

/-- Settles O29: the push writes the cell `SP` names and no other. -/
theorem callPushesTheReturnAddress : Obligations.CallPushesTheReturnAddress := by
  refine fun s nnn => ⟨fun h => ?_, exec_call_full s nnn⟩
  obtain ⟨hsp, hcall⟩ := exec_call_room s nnn h
  refine ⟨_, hcall, addrImm_toNat nnn, rfl, fun k hk => ?_, fun k hk => ?_, onlyStackAndPc_set ..⟩
  · simp [hk, BitVec.toNat_add]
  · simp [Vector.getElem_set_ne _ _ hk.symm]

/-- Settles O30: with `SP = n + 1`, the cell taken is `STACK[n]`. -/
theorem returnPopsIntoPc : Obligations.ReturnPopsIntoPc := by
  refine fun s => ⟨fun h => ?_, exec_ret_empty s⟩
  obtain ⟨n, hn⟩ := Nat.exists_eq_succ_of_ne_zero fun e : s.sp.val = 0 => h (Fin.ext e)
  have hlt : n < 16 := by omega
  refine ⟨_, exec_ret_of_sp hlt hn, hn.symm, fun k hk => ?_, rfl, onlyStackAndPc_set ..⟩
  obtain rfl : k.val = n := by omega
  rfl

end Sys2Proof.Machine
end

/-! ### Jumps and skips -/

section
namespace Sys2Proof.Machine

variable {s : State}

theorem onlyPc_jump (w : Word) : OnlyPc s (s.jump w) :=
  ⟨fun _ => rfl, rfl, fun _ => rfl, ⟨rfl, rfl⟩, ⟨rfl, rfl⟩, ⟨rfl, rfl⟩, rfl, rfl⟩

/-- A skip on equal bytes (R103, R105). -/
theorem skipIf_beq (a b : Byte) :
    (s.skipIf (a == b)).pc.toNat = (s.pc.toNat + if a = b then 4 else 2) % 65536 ∧ OnlyPc s (s.skipIf (a == b)) :=
  ⟨skipIf_pc_eq_skipPc beq_iff_eq, onlyPc_jump _⟩

/-- A skip on unequal bytes (R104, R106), by the equality: `PC + 2` where it holds. -/
theorem skipIf_bne (a b : Byte) :
    (s.skipIf (a != b)).pc.toNat = (s.pc.toNat + if a = b then 2 else 4) % 65536 ∧ OnlyPc s (s.skipIf (a != b)) := by
  refine ⟨?_, onlyPc_jump _⟩
  rw [skipIf_pc_eq_skipPc bne_iff_ne, skipPc, ite_not]

/-- Settles O27: a jump writes `PC` alone, and 16 bits hold `nnn`. -/
theorem jumpSetsPc : Obligations.JumpSetsPc :=
  fun _ nnn => ⟨_, rfl, addrImm_toNat nnn, onlyPc_jump _⟩

/-- Settles O28: the largest sum is 0xFFF + 0xFF, so 16 bits hold it. -/
theorem jumpWithOffsetAddsV0 : Obligations.JumpWithOffsetAddsV0 := by
  intro s nnn
  have hnnn := nnn.isLt
  have hv := (s.getV 0).isLt
  have hpc : (addrImm nnn + s.wideV 0).toNat = nnn.toNat + (s.getV 0).toNat := by
    rw [jumpV0_pc_toNat, pcAfter]
    omega
  refine ⟨_, rfl, hpc, ?_, onlyPc_jump _⟩
  rw [State.jump_pc, hpc]
  omega

/-- Settles O32: the two skips compare the same register and immediate. -/
theorem skipsOnImmediate : Obligations.SkipsOnImmediate :=
  fun _ _ _ => ⟨⟨_, rfl, skipIf_beq _ _⟩, _, rfl, skipIf_bne _ _⟩

/-- Settles O33: the two skips compare the same two registers. -/
theorem skipsOnRegisters : Obligations.SkipsOnRegisters :=
  fun _ _ _ => ⟨⟨_, rfl, skipIf_beq _ _⟩, _, rfl, skipIf_bne _ _⟩

end Sys2Proof.Machine
end

/-! ## Load, arithmetic, logic, shifts, random (spec 42_load_alu): proofs -/

/-! ### The random source -/

section
namespace Sys2Proof.Machine

/-- Settles O23: the draw count in the footprint of the executed instruction; the tick keeps it. -/
theorem onlyRandomTakesAByte : Obligations.OnlyRandomTakesAByte := by
  intro s t i hd h
  obtain ⟨u, hu, rfl⟩ := step_footprint hd h
  exact hu.draws

end Sys2Proof.Machine
end

/-! ### What the write of one register leaves -/

section
namespace Sys2Proof.Machine

variable {s : State} {x : Nibble} {b : Byte}

theorem onlyRegsAndPc_set (regs : Vector Byte 16) (w : Word) : OnlyRegsAndPc s { s with v := regs, pc := w } :=
  ⟨rfl, fun _ => rfl, ⟨rfl, rfl⟩, ⟨rfl, rfl⟩, ⟨rfl, rfl⟩, rfl, rfl⟩

theorem State.getV_setV_advance_same : (s.setV x b).advance.getV x = b := by
  rw [State.getV_advance, State.getV_setV, if_pos rfl]

theorem sameRegsBut_setV_advance : SameRegsBut [x] s (s.setV x b).advance :=
  registersChangeOnlyWhereNamed s _ (.ldImm x b) rfl

/-- The frame of the instructions that write `V[x]` and no flag (R110 to R115). -/
theorem setV_advance_frame :
    SameRegsBut [x] s (s.setV x b).advance ∧ Advanced s (s.setV x b).advance ∧ OnlyRegsAndPc s (s.setV x b).advance :=
  ⟨sameRegsBut_setV_advance, advanced_advance rfl, onlyRegsAndPc_set ..⟩

/-- Settles O34: one register takes the immediate, or the other register's byte. -/
theorem loadImmediateAndCopy : Obligations.LoadImmediateAndCopy := fun _ _ _ _ =>
  ⟨⟨_, rfl, State.getV_setV_advance_same, setV_advance_frame⟩,
    _, rfl, State.getV_setV_advance_same, setV_advance_frame⟩

/-- Settles O35: the byte written is the 8-bit sum. -/
theorem addImmediateWrapsWithoutFlag : Obligations.AddImmediateWrapsWithoutFlag := by
  refine fun s x kk => ⟨_, rfl, ?_, setV_advance_frame⟩
  rw [State.getV_setV_advance_same, BitVec.toNat_add]

/-- Settles O36: the byte written is the bitwise operation, read bit by bit. -/
theorem bitwiseForms : Obligations.BitwiseForms := by
  refine fun s x y => ⟨⟨_, rfl, fun k _ => ?or, setV_advance_frame⟩, ⟨_, rfl, fun k _ => ?and, setV_advance_frame⟩,
    _, rfl, fun k _ => ?xor, setV_advance_frame⟩
  case or => rw [State.getV_setV_advance_same, BitVec.getLsbD_or]
  case and => rw [State.getV_setV_advance_same, BitVec.getLsbD_and]
  case xor => rw [State.getV_setV_advance_same, BitVec.getLsbD_xor]

/-- Settles O41: the byte is the next of the random source, which neither `x` nor `kk` chooses. -/
theorem randomByteIsMasked : Obligations.RandomByteIsMasked := by
  refine fun s => ⟨s.drawByte.1, fun x kk => ⟨_, rfl, fun k _ => ?_, sameRegsBut_setV_advance (s := s.drawByte.2),
    advanced_advance rfl, rfl, fun _ => rfl, ⟨rfl, rfl⟩, ⟨rfl, rfl⟩, ⟨rfl, rfl⟩, rfl⟩⟩
  rw [State.getV_setV_advance_same, BitVec.getLsbD_and]

end Sys2Proof.Machine
end

/-! ### The flag-setters -/

section
namespace Sys2Proof.Machine

variable {s : State} {x : Nibble} {f b : Byte} {n : Nat}

/-! #### The two writes, and the values written -/

/-- The result is written last, so `V[x]` holds it even where `x` names `VF` (R123). -/
theorem State.getV_flagThenResult_dest : (s.setFlagThenResult x f b).advance.getV x = b := by
  rw [State.getV_advance, State.getV_setFlagThenResult, if_pos rfl]

/-- The flag stays in `VF` unless the result is written over it (R122). -/
theorem State.getV_flagThenResult_flag (hx : x ≠ 15) : (s.setFlagThenResult x f b).advance.getV 15 = f := by
  rw [State.getV_advance, State.getV_setFlagThenResult, if_neg hx.symm, if_pos rfl]

theorem sameRegsBut_flagThenResult : SameRegsBut [x, 15] s (s.setFlagThenResult x f b).advance := by
  intro r hr
  obtain ⟨hrx, hr15⟩ : r ≠ x ∧ r ≠ 15 := by simpa using hr
  rw [State.getV_advance, State.getV_setFlagThenResult, if_neg hrx, if_neg hr15]

theorem flagThenResult_frame :
    SameRegsBut [x, 15] s (s.setFlagThenResult x f b).advance ∧ Advanced s (s.setFlagThenResult x f b).advance ∧
      OnlyRegsAndPc s (s.setFlagThenResult x f b).advance :=
  ⟨sameRegsBut_flagThenResult, advanced_advance rfl, onlyRegsAndPc_set ..⟩

/-- The destination of a flag-setter, as a number. -/
theorem State.flagThenResult_dest_toNat (hb : b.toNat = n) :
    ((s.setFlagThenResult x f b).advance.getV x).toNat = n := by
  rw [State.getV_flagThenResult_dest, hb]

/-- The flag of a flag-setter whose destination is not `VF`, as a number. -/
theorem State.flagThenResult_flag_toNat (hx : x ≠ 15) (hf : f.toNat = n) :
    ((s.setFlagThenResult x f b).advance.getV 15).toNat = n := by
  rw [State.getV_flagThenResult_flag hx, hf]

theorem carryFlag_eq (a b : Byte) : carryFlag a b = if a.toNat + b.toNat > 255 then 1 else 0 := by
  simp only [carryFlag, flagByte_eq, decide_eq_true_eq]

theorem greaterFlag_eq (a b : Byte) : greaterFlag a b = if a.toNat > b.toNat then 1 else 0 := by
  simp only [greaterFlag, flagByte_eq, decide_eq_true_eq]

theorem carryFlag_toNat (a b : Byte) : (carryFlag a b).toNat = if a.toNat + b.toNat > 255 then 1 else 0 := by
  rw [carryFlag_eq]
  split <;> rfl

theorem greaterFlag_toNat (a b : Byte) : (greaterFlag a b).toNat = if a.toNat > b.toNat then 1 else 0 := by
  rw [greaterFlag_eq]
  split <;> rfl

/-! #### The statements -/

/-- Settles O37: the 8-bit sum, and the carry of the exact one. -/
theorem addSetsCarry : Obligations.AddSetsCarry := fun _ _ _ =>
  ⟨_, rfl, State.flagThenResult_dest_toNat (BitVec.toNat_add ..),
    fun hx => (State.getV_flagThenResult_flag hx).trans (carryFlag_eq ..), flagThenResult_frame⟩

/-- Settles O38: the two subtractions differ in which register is the minuend. -/
theorem subtractSetsGreater : Obligations.SubtractSetsGreater := fun _ _ _ =>
  ⟨⟨_, rfl, State.flagThenResult_dest_toNat (sub_toNat_add ..),
      fun hx => (State.getV_flagThenResult_flag hx).trans (greaterFlag_eq ..), flagThenResult_frame⟩,
    _, rfl, State.flagThenResult_dest_toNat (sub_toNat_add ..),
      fun hx => (State.getV_flagThenResult_flag hx).trans (greaterFlag_eq ..), flagThenResult_frame⟩

/-- Settles O39: a shift halves or doubles the byte and drops one bit into the flag; its meaning does not name `y`. -/
theorem shiftsMoveOneBit : Obligations.ShiftsMoveOneBit := fun _ _ _ =>
  ⟨⟨_, rfl, State.flagThenResult_dest_toNat (ushiftRight_one_toNat _),
      fun hx => State.flagThenResult_flag_toNat hx (lowBitFlag_toNat _),
      sameRegsBut_flagThenResult, advanced_advance rfl, onlyRegsAndPc_set .., fun _ => rfl⟩,
    _, rfl, State.flagThenResult_dest_toNat (shiftLeft_one_toNat _),
      fun hx => State.flagThenResult_flag_toNat hx (highBitFlag_toNat _),
      sameRegsBut_flagThenResult, advanced_advance rfl, onlyRegsAndPc_set .., fun _ => rfl⟩

/-- Settles O40, row by row: with destination `VF` the result is what `VF` holds; with another destination the flag is. -/
theorem flagSettersNamingVF : Obligations.FlagSettersNamingVF := by
  rintro s x y f a b hx - rfl rfl rfl
  have hdouble (v : Byte) : (v + v).toNat = 2 * v.toNat % 256 := by rw [BitVec.toNat_add, two_mul]
  have hzero (v : Byte) : (v - v).toNat = 0 := by rw [BitVec.sub_self]; rfl
  refine ⟨⟨_, rfl, ?add_15_y⟩, ⟨_, rfl, ?add_x_15, ?add_flag⟩, ⟨_, rfl, ?add_15_15⟩,
    ⟨_, rfl, ?sub_15_y⟩, ⟨_, rfl, ?sub_x_15, ?sub_flag⟩, ⟨_, rfl, ?sub_15_15⟩,
    fun z => ⟨_, rfl, ?shr_15⟩, ⟨_, rfl, ?shr_x, ?shr_flag⟩,
    ⟨_, rfl, ?subn_15_y⟩, ⟨_, rfl, ?subn_x_15, ?subn_flag⟩, ⟨_, rfl, ?subn_15_15⟩,
    fun z => ⟨_, rfl, ?shl_15⟩, ⟨_, rfl, ?shl_x, ?shl_flag⟩⟩
  case add_15_y | add_x_15 => exact State.flagThenResult_dest_toNat (BitVec.toNat_add ..)
  case add_15_15 => exact State.flagThenResult_dest_toNat (hdouble _)
  case sub_15_y | sub_x_15 | subn_15_y | subn_x_15 => exact State.flagThenResult_dest_toNat (sub_toNat_add ..)
  case sub_15_15 | subn_15_15 => exact State.flagThenResult_dest_toNat (hzero _)
  case shr_15 | shr_x => exact State.flagThenResult_dest_toNat (ushiftRight_one_toNat _)
  case shl_15 | shl_x => exact State.flagThenResult_dest_toNat (shiftLeft_one_toNat _)
  case add_flag => exact State.flagThenResult_flag_toNat hx (carryFlag_toNat ..)
  case sub_flag | subn_flag => exact State.flagThenResult_flag_toNat hx (greaterFlag_toNat ..)
  case shr_flag => exact State.flagThenResult_flag_toNat hx (lowBitFlag_toNat _)
  case shl_flag => exact State.flagThenResult_flag_toNat hx (highBitFlag_toNat _)

end Sys2Proof.Machine
end

/-! ## Index register and memory (spec 43_index_memory): proofs -/

/-! ### Blocks between the registers and memory -/

section
namespace Sys2Proof.Machine

variable {s : State} {bytes : List Byte}

theorem onlyMemoryAndPc_set (m : Memory) (w : Word) : OnlyMemoryAndPc s { s with mem := m, pc := w } :=
  ⟨fun _ => rfl, rfl, ⟨rfl, rfl⟩, ⟨rfl, rfl⟩, ⟨rfl, rfl⟩, rfl, rfl⟩

/-- The frame of the instructions that store bytes (R128, R130). -/
theorem storeBytes_advance_frame (a : Nat) :
    Advanced s (s.storeBytes a bytes).advance ∧ OnlyMemoryAndPc s (s.storeBytes a bytes).advance := by
  refine ⟨advanced_advance (State.storeBytes_pc ..), ?_⟩
  rw [State.storeBytes_eq]
  exact onlyMemoryAndPc_set ..

/-- The frame of the block load (R131). -/
theorem loadBlock_advance_frame (a : Nat) (x : Nibble) :
    Advanced s (s.loadBlock a x).advance ∧ OnlyRegsAndPc s (s.loadBlock a x).advance := by
  refine ⟨advanced_advance (State.loadBlock_pc ..), ?_⟩
  rw [State.loadBlock_eq]
  exact onlyRegsAndPc_set ..

/-- What bytes stored from `I` up leave at the addresses they do not cover, each reduced on its own (R50, R129). -/
theorem State.memRead_storeAtIndex_outside {n c : Nat} (hn : bytes.length = n)
    (h : ∀ k < n, c % 4096 ≠ s.indexed k % 4096) :
    (s.storeBytes (s.indexed 0) bytes).advance.memRead c = s.memRead c :=
  State.memRead_storeBytes_outside s _ c bytes (hn ▸ h)

/-- Settles O44: the block reads back register by register, and is `x + 1` bytes long. -/
theorem blockStoreWritesRegisters : Obligations.BlockStoreWritesRegisters := by
  refine fun s x => ⟨_, rfl, fun r hr => ?registers, fun a ha => ?others, storeBytes_advance_frame _⟩
  case registers =>
    have hread := s.memRead_storeBlock hr
    rwa [BitVec.ofNat_toNat, BitVec.setWidth_eq] at hread
  case others =>
    exact State.memRead_storeAtIndex_outside (s.block_length x) fun k hk => ha k (Nat.le_of_lt_succ hk)

/-- Settles O45: register by register, on both sides of `x`. -/
theorem blockLoadReadsMemory : Obligations.BlockLoadReadsMemory := by
  refine fun s x => ⟨_, rfl, fun r hr => ?loaded, fun r hr => ?kept, loadBlock_advance_frame _ x⟩
  case loaded =>
    rw [State.getV_advance, State.getV_loadBlock, if_pos hr]
    rfl
  case kept => rw [State.getV_advance, State.getV_loadBlock, if_neg (Nat.not_le.2 hr)]

end Sys2Proof.Machine
end

/-! ### The index register -/

section
namespace Sys2Proof.Machine

variable {s : State}

theorem onlyIAndPc_set (i w : Word) : OnlyIAndPc s { s with i := i, pc := w } :=
  ⟨fun _ => rfl, fun _ => rfl, ⟨rfl, rfl⟩, ⟨rfl, rfl⟩, ⟨rfl, rfl⟩, rfl, rfl⟩

/-- The frame of the instructions that write `I` (R125, R126, R127). -/
theorem setI_advance_frame (w : Word) :
    Advanced s (s.setI w).advance ∧ OnlyIAndPc s (s.setI w).advance :=
  ⟨advanced_advance rfl, onlyIAndPc_set ..⟩

/-- `Fx1E`'s sum is taken mod 65536 (R126). -/
theorem addIndex_toNat (x : Nibble) : (s.i + s.wideV x).toNat = (s.i.toNat + (s.getV x).toNat) % 65536 := by
  rw [BitVec.toNat_add, State.wideV_toNat]

/-- Settles O42: each of the three words written to `I`, as a number. -/
theorem indexLoads : Obligations.IndexLoads := fun _ nnn x =>
  ⟨⟨_, rfl, addrImm_toNat nnn, setI_advance_frame _⟩, ⟨_, rfl, addIndex_toNat x, setI_advance_frame _⟩,
    _, rfl, glyphAddress_toNat _, setI_advance_frame _⟩

end Sys2Proof.Machine
end

/-! ### The decimal digits -/

section
namespace Sys2Proof.Machine

/-- The three digits as numbers: 8 bits hold each (R128). -/
theorem bcdDigits_toNat (b : Byte) :
    (bcdDigits b).map BitVec.toNat = [b.toNat / 100, b.toNat / 10 % 10, b.toNat % 10] := by
  have hb := b.isLt
  have hhundreds : b.toNat / 100 < 2 ^ 8 := by omega
  have htens : b.toNat / 10 % 10 < 2 ^ 8 := by omega
  have hones : b.toNat % 10 < 2 ^ 8 := by omega
  simp only [bcdDigits, List.map_cons, List.map_nil, BitVec.toNat_ofNat, Nat.mod_eq_of_lt hhundreds,
    Nat.mod_eq_of_lt htens, Nat.mod_eq_of_lt hones]

/-- Each digit of `V[x]` reads back at its address, as a number (R128). -/
theorem State.memRead_storeDigits_toNat (s : State) (b : Byte) {k : Nat} (hk : k < 3) :
    ((s.storeBytes (s.indexed 0) (bcdDigits b)).advance.memRead (s.indexed k)).toNat =
      [b.toNat / 100, b.toNat / 10 % 10, b.toNat % 10][k] := by
  have hread : (s.storeBytes (s.indexed 0) (bcdDigits b)).advance.memRead (s.indexed k) = (bcdDigits b)[k] :=
    State.memRead_storeBytes_inside s s.i.toNat k (bcdDigits b) hk (by simp)
  have hmap : (bcdDigits b)[k].toNat = ((bcdDigits b).map BitVec.toNat)[k]'hk := (List.getElem_map ..).symm
  rw [hread, hmap]
  simp only [bcdDigits_toNat]

/-- Settles O43: three bytes are stored, the digits in order. -/
theorem bcdStoresThreeDigits : Obligations.BcdStoresThreeDigits := fun s x =>
  ⟨_, rfl, s.memRead_storeDigits_toNat _ (k := 0) (by decide), s.memRead_storeDigits_toNat _ (k := 1) (by decide),
    s.memRead_storeDigits_toNat _ (k := 2) (by decide),
    fun _ ha => State.memRead_storeAtIndex_outside (bcdDigits_length _) ha, storeBytes_advance_frame _⟩

end Sys2Proof.Machine
end

/-! ## Display (spec 44_display): proofs -/

/-! ### The clear -/

section
namespace Sys2Proof.Machine

/-- Settles O46: the framebuffer written is 0, whose every bit is off. -/
theorem clearTurnsEveryCellOff : Obligations.ClearTurnsEveryCellOff := fun _ =>
  ⟨_, rfl, fun _ => BitVec.getLsbD_zero, rfl, fun _ => rfl, rfl, fun _ => rfl, ⟨rfl, rfl⟩, ⟨rfl, rfl⟩, ⟨rfl, rfl⟩,
    advanced_advance rfl⟩

end Sys2Proof.Machine
end

/-! ### The cells of a sprite -/

section
namespace Sys2Proof.Machine

variable {s u : State} {x y n : Nibble} {k : Nat}

/-- Wrapping keeps a sprite on the screen (R136). -/
theorem State.lt_of_spriteCovers (h : s.spriteCovers x y n k = true) : k < 2048 := by
  obtain ⟨row, -, col, -, -, rfl⟩ := (s.spriteCovers_iff x y n k).1 h
  omega

/-- A sprite without a set bit covers no cell (R138). -/
theorem State.spriteCovers_blank (h : ∀ row < n.toNat, s.memRead (s.indexed row) = 0) :
    s.spriteCovers x y n k = false := by
  refine Bool.eq_false_iff.2 fun hk => ?_
  obtain ⟨row, hrow, col, -, hbit, -⟩ := (s.spriteCovers_iff x y n k).1 hk
  rw [State.spriteByte, h row hrow] at hbit
  simp [spriteBit] at hbit

/-- A sprite's cells depend on its coordinates, `I` and memory alone. -/
theorem State.spriteCovers_congr (hx : u.getV x = s.getV x) (hy : u.getV y = s.getV y) (hi : u.i = s.i)
    (hm : SameMemory s u) : u.spriteCovers x y n k = s.spriteCovers x y n k := by
  simp only [State.spriteCovers, hx, hy, hi, hm _]

end Sys2Proof.Machine
end

/-! ### What a draw does to the cells and to the flag -/

section
namespace Sys2Proof.Machine

variable {s t : State} {x y n : Nibble}

/-- R136: each cell the sprite covers is toggled, and no other. -/
theorem exec_drw_cell (h : exec (.drw x y n) s = .next t) (k : Nat) :
    t.cell k = (s.cell k != s.spriteCovers x y n k) := by
  obtain rfl := Host.Outcome.next.inj h
  have htoggled := (s.blit_covers x y n).1 k
  exact Bool.eq_iff_iff.2 (htoggled.trans ((not_congr Bool.eq_iff_iff.symm).trans bne_iff_ne.symm))

/-- R138: the flag is set exactly when a covered cell was on. -/
theorem exec_drw_flag (h : exec (.drw x y n) s = .next t) :
    ∃ hit, t.getV 15 = flagByte hit ∧
      (hit = true ↔ ∃ k < 2048, s.spriteCovers x y n k = true ∧ s.cell k = true) := by
  obtain rfl := Host.Outcome.next.inj h
  refine ⟨(s.blit (s.spriteColumn x) (s.spriteRow y) n.toNat).hit, ?flag, ?collision⟩
  case flag => rw [State.getV_advance, State.getV_setVF, if_pos rfl]
  case collision =>
    rw [(s.blit_covers x y n).2]
    constructor
    · rintro (hclear | ⟨k, hcov, hon⟩)
      · exact absurd hclear Bool.false_ne_true
      · exact ⟨k, State.lt_of_spriteCovers hcov, hcov, hon⟩
    · rintro ⟨k, -, hcov, hon⟩
      exact .inr ⟨k, hcov, hon⟩

theorem exec_drw_flag_eq_one_iff (h : exec (.drw x y n) s = .next t) :
    t.getV 15 = 1 ↔ ∃ k < 2048, s.spriteCovers x y n k = true ∧ s.cell k = true := by
  obtain ⟨hit, hflag, hiff⟩ := exec_drw_flag h
  rw [hflag, flagByte_eq_one, hiff]

theorem exec_drw_flag_eq_zero_or_one (h : exec (.drw x y n) s = .next t) : t.getV 15 = 0 ∨ t.getV 15 = 1 := by
  obtain ⟨hit, hflag, -⟩ := exec_drw_flag h
  rw [hflag]
  cases hit
  · exact .inl rfl
  · exact .inr rfl

theorem exec_drw_flag_eq_zero (h : exec (.drw x y n) s = .next t)
    (hoff : ∀ k < 2048, s.spriteCovers x y n k = true → s.cell k = false) : t.getV 15 = 0 := by
  refine (exec_drw_flag_eq_zero_or_one h).resolve_right fun hone => ?_
  obtain ⟨k, hk, hcov, hon⟩ := (exec_drw_flag_eq_one_iff h).1 hone
  exact absurd (hoff k hk hcov) (by simp [hon])

/-- A toggle turns a cell off exactly when the cell is covered and was on. -/
theorem exec_drw_turnedOff_iff (h : exec (.drw x y n) s = .next t) (k : Nat) :
    s.cell k = true ∧ t.cell k = false ↔ s.spriteCovers x y n k = true ∧ s.cell k = true := by
  rw [exec_drw_cell h k]
  cases s.cell k <;> simp

/-! #### The statements -/

/-- Settles O47: the cells and the flag by the blitter's law, and no other item is written. -/
theorem drawTogglesTheSpritesCells : Obligations.DrawTogglesTheSpritesCells := fun s x y n =>
  ⟨_, rfl, fun k _ => exec_drw_cell rfl k, (exec_drw_flag_eq_one_iff rfl).2, exec_drw_flag_eq_zero rfl, rfl,
    registersChangeOnlyWhereNamed s _ (.drw x y n) rfl, rfl, fun _ => rfl, ⟨rfl, rfl⟩, ⟨rfl, rfl⟩, ⟨rfl, rfl⟩,
    advanced_advance rfl⟩

/-- Settles O48: the covered cells that were on are the cells turned off; a blank sprite covers none. -/
theorem collisionIsACellTurnedOff : Obligations.CollisionIsACellTurnedOff := by
  refine fun s t x y n h => ⟨exec_drw_flag_eq_zero_or_one h, ?turnedOff, fun hblank => ?blank⟩
  case turnedOff => simp only [exec_drw_flag_eq_one_iff h, exec_drw_turnedOff_iff h]
  case blank =>
    refine exec_drw_flag_eq_zero h fun k _ hcov => ?_
    rw [State.spriteCovers_blank hblank] at hcov
    exact absurd hcov Bool.false_ne_true

/-- Settles O49: toggling twice restores each cell, and a covered cell that was off is on for the second draw. -/
theorem drawTwiceRestoresTheDisplay : Obligations.DrawTwiceRestoresTheDisplay := by
  intro s t u x y n h hfb hx hy hi hm
  have hcov (k : Nat) : u.spriteCovers x y n k = s.spriteCovers x y n k := State.spriteCovers_congr hx hy hi hm
  have hcell (k : Nat) : u.cell k = (s.cell k != s.spriteCovers x y n k) :=
    (State.cell_of_fb hfb k).trans (exec_drw_cell h k)
  refine ⟨_, rfl, BitVec.eq_of_getLsbD_eq fun k _ => ?restored, ?collision⟩
  case restored =>
    calc
      _ = (u.cell k != u.spriteCovers x y n k) := exec_drw_cell rfl k
      _ = s.cell k := by rw [hcell, hcov, Bool.bne_self_right]
  case collision =>
    rintro ⟨k, hk, hkc, hoff⟩
    exact (exec_drw_flag_eq_one_iff rfl).2 ⟨k, hk, by rw [hcov, hkc], by rw [hcell, hoff, hkc]; rfl⟩

end Sys2Proof.Machine
end

/-! ## Keypad and timers (spec 45_keypad_timers): proofs -/

/-! ### The key skips -/

section
namespace Sys2Proof.Machine

variable {s : State}

/-- The key index is the nibble that the low four bits of `V[x]` spell (R151). -/
theorem State.keyIndex_eq {x k : Nibble} (h : k.toNat = (s.getV x).toNat % 16) : s.keyIndex x = k :=
  BitVec.eq_of_toNat_eq ((s.keyIndex_toNat x).trans h.symm)

/-- The skip on a condition that fails, by the condition: `PC + 2` where it holds. -/
theorem State.skipIf_not_pc_toNat (c : Bool) :
    (s.skipIf (!c)).pc.toNat = (s.pc.toNat + if c = true then 2 else 4) % 65536 := by
  rw [State.skipIf_pc_toNat]
  cases c <;> rfl

/-- Settles O50: both skips test the key of the index, one for pressed and one for not pressed. -/
theorem keySkipsTestTheLowNibble : Obligations.KeySkipsTestTheLowNibble := by
  intro s x k hk
  obtain rfl : s.keyIndex x = k := State.keyIndex_eq hk
  exact ⟨⟨_, rfl, s.skipIf_pc_toNat _, onlyPc_jump _⟩, _, rfl, State.skipIf_not_pc_toNat _, onlyPc_jump _⟩

end Sys2Proof.Machine
end

/-! ### The key wait -/

section
namespace Sys2Proof.Machine

/-- Settles O51: with no key pressed none is found; a pressed key with none below it is the one found. -/
theorem keyWaitTakesTheLowestKey : Obligations.KeyWaitTakesTheLowestKey := by
  refine fun s x => ⟨fun hnone => ?waits, fun k hk hlow => ?takes⟩
  case waits => exact exec_ldVxKey_none s x (s.lowestKey_none.2 hnone)
  case takes =>
    refine ⟨_, exec_ldVxKey_some s x (s.lowestKey_eq hk hlow), ?_, setV_advance_frame⟩
    rw [State.getV_setV_advance_same, BitVec.toNat_setWidth_of_le (by decide)]

end Sys2Proof.Machine
end

/-! ### The timer instructions -/

section
namespace Sys2Proof.Machine

/-- Settles O52: the read writes one register; each write sets its own timer to `V[x]` and leaves the other. -/
theorem timerReadsAndWrites : Obligations.TimerReadsAndWrites := by
  refine fun s x => ⟨⟨_, rfl, State.getV_setV_advance_same, setV_advance_frame⟩, ⟨_, rfl, ?writeDt⟩, _, rfl, ?writeSt⟩
  case writeDt | writeSt =>
    exact ⟨rfl, rfl, fun _ => rfl, rfl, fun _ => rfl, ⟨rfl, rfl⟩, ⟨rfl, rfl⟩, ⟨rfl, rfl⟩, advanced_advance rfl⟩

end Sys2Proof.Machine
end

/-! ## Exceptions (spec 60_exceptions): proofs -/

/-! ### How an instruction ends -/

section
namespace Sys2Proof.Machine

variable {s : State} {i : Instr} {f : Fault}

/-- An instruction that leaves the call stack alone completes in every state. -/
theorem exec_completes_of_usesStack_false (s : State) (hi : i.usesStack = false) : ∃ t, exec i s = .next t := by
  cases i with
  | ret | call nnn => exact absurd hi (by simp [Instr.usesStack])
  | ldVxKey x =>
    cases hk : s.lowestKey with
    | none => exact ⟨_, exec_ldVxKey_none s x hk⟩
    | some k => exact ⟨_, exec_ldVxKey_some s x hk⟩
  | _ => exact ⟨_, rfl⟩

/-- The three ends of an instruction: it completes, the call stack is full (R157), or the call stack is empty (R158). -/
theorem exec_ends (i : Instr) (s : State) :
    (∃ t, exec i s = .next t) ∨
    (∃ nnn, i = .call nnn ∧ s.sp = 16 ∧ exec i s = .fault .stackOverflow) ∨
    (i = .ret ∧ s.sp = 0 ∧ exec i s = .fault .stackUnderflow) := by
  cases hi : i.usesStack with
  | false => exact .inl (exec_completes_of_usesStack_false s hi)
  | true =>
    cases i with
    | call nnn =>
      by_cases hs : s.sp = 16
      · exact .inr (.inl ⟨nnn, rfl, hs, exec_call_full s nnn hs⟩)
      · obtain ⟨_, he⟩ := exec_call_room s nnn hs
        exact .inl ⟨_, he⟩
    | ret =>
      by_cases hs : s.sp = 0
      · exact .inr (.inr ⟨rfl, hs, exec_ret_empty s hs⟩)
      · obtain ⟨_, he⟩ := exec_ret_some s hs
        exact .inl ⟨_, he⟩
    | _ => cases hi

/-- An instruction is fatal for one of two causes, each with its own fault (R157, R158). -/
theorem exec_fault_iff : exec i s = .fault f ↔
    (∃ nnn, i = .call nnn ∧ s.sp = 16 ∧ f = .stackOverflow) ∨ (i = .ret ∧ s.sp = 0 ∧ f = .stackUnderflow) := by
  constructor
  · intro h
    obtain ⟨t, he⟩ | ⟨nnn, hi, hs, he⟩ | ⟨hi, hs, he⟩ := exec_ends i s
    · cases h.symm.trans he
    · exact .inl ⟨nnn, hi, hs, Host.Outcome.fault.inj (h.symm.trans he)⟩
    · exact .inr ⟨hi, hs, Host.Outcome.fault.inj (h.symm.trans he)⟩
  · rintro (⟨nnn, rfl, hs, rfl⟩ | ⟨rfl, hs, rfl⟩)
    · exact exec_call_full s nnn hs
    · exact exec_ret_empty s hs

end Sys2Proof.Machine
end

/-! ### How a step ends -/

section
namespace Sys2Proof.Machine

/-- A step answers a next state or a fault, never a refusal (R155). -/
theorem step_next_or_fault (s : State) : (∃ t, step s = .next t) ∨ ∃ f, step s = .fault f := by
  cases hd : decode s.fetch with
  | none => exact .inr ⟨_, (step_fault_iff s _).2 (.inl ⟨hd, rfl⟩)⟩
  | some i =>
    obtain ⟨u, he⟩ | ⟨_, _, _, he⟩ | ⟨_, _, he⟩ := exec_ends i s
    · exact .inl ⟨_, (step_next_iff s _).2 ⟨i, u, hd, he, rfl⟩⟩
    · exact .inr ⟨_, (step_fault_iff s _).2 (.inr ⟨i, hd, he⟩)⟩
    · exact .inr ⟨_, (step_fault_iff s _).2 (.inr ⟨i, hd, he⟩)⟩

/-- A word that does not decode is the one cause of `DecodeError`, and it is the word carried: no instruction raises it
(R156). -/
theorem step_decodeError_iff (s : State) (w : Word) :
    step s = .fault (.decodeError w) ↔ decode s.fetch = none ∧ w = s.fetch := by
  simp [step_fault_iff, exec_fault_iff]

/-- `2nnn` with the call stack full is the one cause of `StackOverflow` (R157). -/
theorem step_stackOverflow_iff (s : State) :
    step s = .fault .stackOverflow ↔ (∃ nnn, decode s.fetch = some (.call nnn)) ∧ s.sp = 16 := by
  simp [step_fault_iff, exec_fault_iff]

/-- `00EE` with the call stack empty is the one cause of `StackUnderflow` (R158). -/
theorem step_stackUnderflow_iff (s : State) :
    step s = .fault .stackUnderflow ↔ decode s.fetch = some .ret ∧ s.sp = 0 := by
  simp [step_fault_iff, exec_fault_iff]

/-- Settles O9: the three fatal ends by their causes; a step that does not complete is one of them, since it answers a
next state or a fault. -/
theorem stepEndsInExactlyFourWays : Obligations.StepEndsInExactlyFourWays := by
  refine fun s => ⟨step_decodeError_iff s, step_stackOverflow_iff s, step_stackUnderflow_iff s, ?noRefusal, ?completes⟩
  case noRefusal =>
    intro r
    obtain ⟨t, h⟩ | ⟨f, h⟩ := step_next_or_fault s <;> simp [h]
  case completes =>
    obtain ⟨t, h⟩ | ⟨f, h⟩ := step_next_or_fault s <;> simp [h]

end Sys2Proof.Machine
end

/-! ### What the host sees -/

section
namespace Sys2Proof.Machine

variable {s t : State} {f : Fault}

theorem State.hostStep_of_next (h : step s = .next t) : s.hostStep = some (.ok, t) := by
  simp only [State.hostStep, h]

/-- A fatal step hands the host its result with the state as it was (R160). -/
theorem State.hostStep_of_fault (h : step s = .fault f) : s.hostStep = some (f.result, s) := by
  simp only [State.hostStep, h]

theorem Fault.result_ne_ok (f : Fault) : f.result ≠ .ok := by
  cases f <;> simp [Fault.result]

/-- The numbers of R162 for the fatal results. -/
theorem Fault.result_code (f : Fault) : f.result.code = 1 ∨ f.result.code = 2 ∨ f.result.code = 3 := by
  cases f with
  | decodeError w => exact .inl rfl
  | stackOverflow => exact .inr (.inl rfl)
  | stackUnderflow => exact .inr (.inr rfl)

/-- Settles O11: a step that completes hands over its next state; a fatal one hands back the same state, from which the
host's next step is the same one. -/
theorem fatalStepChangesNothing : Obligations.FatalStepChangesNothing := by
  intro s
  obtain ⟨t, h⟩ | ⟨f, h⟩ := step_next_or_fault s
  · exact ⟨.ok, t, State.hostStep_of_next h, iff_of_true rfl h, fun hr => absurd rfl hr⟩
  · have hhost : s.hostStep = some (f.result, s) := State.hostStep_of_fault h
    have hnext : step s ≠ .next s := by simp [h]
    exact ⟨f.result, s, hhost, iff_of_false f.result_ne_ok hnext, fun _ => ⟨rfl, hhost, f.result_code⟩⟩

end Sys2Proof.Machine
end

/-! ## The host's operations and hazards (spec 70_reset_and_hazards): proofs -/

/-! ### The canonical form of memory -/

section
namespace Sys2Proof.Machine

variable {s t : State} {bytes : List Byte}

/-- A load that succeeds has stored its bytes at 0x200 (R177). -/
theorem State.eq_storeBytes_of_load (h : s.load bytes = .ok t) : t = s.storeBytes 0x200 bytes := by
  by_cases hbad : bytes.length = 0 ∨ 3584 < bytes.length
  · rw [(s.hostLoad_bad bytes hbad).1] at h
    cases h
  · obtain ⟨hpos, hmax⟩ : 0 < bytes.length ∧ bytes.length ≤ 3584 := by omega
    exact Except.ok.inj (h.symm.trans (s.hostLoad_fits bytes hpos hmax).1)

/-- Settles O15: construction and load store bytes, reset clears a region, and the other two leave memory alone. -/
theorem hostOperationsKeepMemoryCanonical : Obligations.HostOperationsKeepMemoryCanonical := by
  refine ⟨fun font => State.storeBytes_wf _ _ Memory.wf_nil, fun s hwf => ⟨Memory.wf_clearProgram hwf, ?load, ?others⟩⟩
  case load =>
    intro bytes t h
    obtain rfl := State.eq_storeBytes_of_load h
    exact State.storeBytes_wf _ bytes hwf
  case others => exact ⟨fun _ _ => hwf, hwf⟩

end Sys2Proof.Machine
end

/-! ### What load does -/

section
namespace Sys2Proof.Machine

variable {bytes : List Byte}

/-- An address below 0x200, or past the program's last byte, reads as before the load (R177). -/
theorem State.memRead_load_outside (s : State) {a : Nat} (ha : a < 4096) (hmax : bytes.length ≤ 3584)
    (hout : a < 0x200 ∨ 0x200 + bytes.length ≤ a) : (s.storeBytes 0x200 bytes).memRead a = s.memRead a :=
  State.memRead_storeBytes_outside _ _ _ _ fun k hk => by omega

/-- Settles O57: a load of a bad size fails and hands back the state; any other stores its bytes, which changes memory
alone. -/
theorem loadCopiesTheProgram : Obligations.LoadCopiesTheProgram := by
  refine fun s bytes => ⟨fun hbad => ?fails, fun hpos hmax => ?copies⟩
  case fails =>
    obtain ⟨hload, hhost⟩ := s.hostLoad_bad bytes hbad
    exact ⟨hload, _, hhost, rfl, rfl⟩
  case copies =>
    obtain ⟨hload, hhost⟩ := s.hostLoad_fits bytes hpos hmax
    refine ⟨_, hload, ⟨_, hhost, rfl, rfl⟩, fun k hk => s.memRead_storeBytes_inside 0x200 k bytes hk (by omega),
      fun a ha hout => s.memRead_load_outside ha hmax hout, ?frame⟩
    simp [SameRegs, SameStack, SameTimers, SameDisplay, SameInputs]

end Sys2Proof.Machine
end

/-! ### A step without a program -/

section
namespace Sys2Proof.Machine

/-- The word of two zero bytes matches no row of the opcode map (R76). -/
theorem step_decodeError_of_zero {s : State} (hpc : s.pc.toNat = 0x200) (hhi : s.memRead 0x200 = 0)
    (hlo : s.memRead 0x201 = 0) : step s = .fault (.decodeError 0) := by
  have hf : s.fetch = 0 := State.fetch_of_memRead (by rw [hpc]) (by rw [hpc]) hhi hlo
  have hnone : decode 0 = none := by decide
  exact (step_decodeError_iff s 0).2 ⟨hf ▸ hnone, hf.symm⟩

/-- Settles O58: construction and reset both leave `PC` at 0x200, where memory is 0. -/
theorem stepWithoutAProgramIsFatal : Obligations.StepWithoutAProgramIsFatal := by
  refine ⟨fun font => ?construct, fun s => ?reset⟩
  case construct =>
    have hzero {a : Nat} (ha : a < 4096) (hprog : 0x200 ≤ a) : (State.construct font).memRead a = 0 :=
      State.construct_zero font ha (.inr (by omega))
    have hpc : (State.construct font).pc.toNat = 0x200 := by rw [State.construct_eq]; rfl
    exact step_decodeError_of_zero hpc (hzero (by decide) (by decide)) (hzero (by decide) (by decide))
  case reset =>
    exact step_decodeError_of_zero rfl (s.memRead_hostReset (by decide)) (s.memRead_hostReset (by decide))

end Sys2Proof.Machine
end

/-! ### The key write and the frame consume -/

section
namespace Sys2Proof.Machine

/-- A key reads as written, and every other key as before (R178). -/
theorem State.key_keyWrite (s : State) (k j : Nibble) (p : Bool) :
    (s.keyWrite k p).key j = if j = k then p else s.key j := by
  simp only [State.key, State.keyWrite, Vector.getElem_set, BitVec.toNat_inj, eq_comm]

/-- Settles O59: the key write by its one law; the frame consume by its definition. -/
theorem keyWriteAndFrameConsume : Obligations.KeyWriteAndFrameConsume := fun s k p =>
  ⟨⟨by rw [State.key_keyWrite, if_pos rfl], fun j hj => by rw [State.key_keyWrite, if_neg hj], rfl⟩, rfl, rfl, rfl⟩

end Sys2Proof.Machine
end

/-! ### A timer written and ticked in one step -/

section
namespace Sys2Proof.Machine

variable {s u : State} {i : Instr}

/-- An instruction that completes is followed by the tick, in the same step (R90). -/
theorem step_of_exec (hd : decode s.fetch = some i) (he : exec i s = .next u) : step s = .next u.tick :=
  (step_next_iff s _).2 ⟨i, u, hd, he, rfl⟩

/-- Settles O53: the tick takes one from the timer as the instruction leaves it, and keeps the register `Fx07` wrote. -/
theorem timerWrittenAndTickedInOneStep : Obligations.TimerWrittenAndTickedInOneStep := fun _ _ =>
  ⟨fun hd => ⟨_, step_of_exec hd rfl, tickTimer_toNat _⟩,
    fun hd => ⟨_, step_of_exec hd rfl, tickTimer_toNat _⟩,
    fun hd => ⟨_, step_of_exec hd rfl, State.getV_setV_advance_same, tickTimer_toNat _⟩⟩

end Sys2Proof.Machine
end

/-! ### The self-jump -/

section
namespace Sys2Proof.Machine

variable {s t : State}

/-- From a self-jump, a step is a tick and nothing else: the jump goes where `PC` is (R101, R187). -/
theorem State.SelfJump.step_eq (h : s.SelfJump) : step s = .next s.tick := by
  obtain ⟨nnn, hd, hpc⟩ := h
  have htarget : addrImm nnn = s.pc := BitVec.eq_of_toNat_eq ((addrImm_toNat nnn).trans hpc)
  have hstay : exec (.jp nnn) s = .next s := by rw [exec, execJp, htarget]; rfl
  exact step_of_exec hd hstay

/-- The tick keeps `PC` and memory, so the same instruction comes again. -/
theorem State.SelfJump.tick (h : s.SelfJump) : s.tick.SelfJump := h

/-- A run whose first step completes goes on from the next state. -/
theorem run_succ_of_step (k : Nat) (h : step s = .next t) : core.run (k + 1) s = core.run k t := by
  have hcore : core.step s = .next t := h
  simp only [Host.Core.run, hcore]

/-- Settles O60: by induction on the number of steps, each of which is a tick. -/
theorem selfJumpOnlyRunsTheTimersDown : Obligations.SelfJumpOnlyRunsTheTimersDown := by
  intro s k h
  induction k generalizing s with
  | zero => exact ⟨s, rfl, rfl, rfl, rfl⟩
  | succ k ih =>
    obtain ⟨t, hrun, ht, hdt, hst⟩ := ih s.tick h.tick
    rw [State.tick_dt, tickTimer_toNat] at hdt
    rw [State.tick_st, tickTimer_toNat] at hst
    exact ⟨t, (run_succ_of_step k h.step_eq).trans hrun, ht, by omega, by omega⟩

end Sys2Proof.Machine
end
